-- ==== Sys2Proof/Word.lean ====
section
/-! DEFINITION. The widths of the machine: words, bytes, immediates, register indices, opcode fields and the cycle
count (00_scope.md R7 to R11, 30_encoding.md R81). -/

namespace Sys2Proof

/-- A 32-bit value: a register, the program counter, an instruction word (R7, R8, R10). -/
abbrev Word := BitVec 32

/-- One memory cell, an octet (R11). -/
abbrev Byte := BitVec 8

/-- A 16-bit immediate field (R81). -/
abbrev Imm := BitVec 16

/-- A 5-bit register index; every value is valid (R22, R86). -/
abbrev RegIdx := BitVec 5

/-- A 6-bit opcode or funct field (R81). -/
abbrev Code := BitVec 6

/-- The 64-bit cycle counter and cycle budget (R9, R12). -/
abbrev Count := BitVec 64

end Sys2Proof
end

