-- ==== Sys2Proof/Syntax.lean ====
section
/-! DEFINITION. The instructions: one constructor for each row of spec/opcode_table.json (30_encoding.md R87, R88), the
decoded field set (R83) and the mnemonics. Every bit of a word stands in the term it decodes to, the bits no rule
reads among them (the shamt of ADD and SUB, the rest of an unrecognised word), so that re-encoding gives the word
back (R93). -/

namespace Sys2Proof

/-- The field set the decoder produces from every word (R81, R83). -/
structure Fields where
  opcode : Code
  rs     : RegIdx
  rt     : RegIdx
  rd     : RegIdx
  shamt  : RegIdx
  funct  : Code
  imm    : Imm
  deriving DecidableEq, Repr

/-- The instruction set: the six instructions of R2 and the two classes of unrecognised words of R90. Operands stand
in the order of R94. -/
inductive Instr where
  /-- ADD rd, rs, rt (41_arith.md R140); the shamt field is read by no rule. -/
  | add (rd rs rt shamt : RegIdx)
  /-- SUB rd, rs, rt (41_arith.md R141); the shamt field is read by no rule. -/
  | sub (rd rs rt shamt : RegIdx)
  /-- ADDI rt, rs, imm (41_arith.md R142). -/
  | addi (rt rs : RegIdx) (imm : Imm)
  /-- BEQ rs, rt, imm (42_branch.md R150). -/
  | beq (rs rt : RegIdx) (imm : Imm)
  /-- SW rt, imm(rs) (43_loadstore.md R161). -/
  | sw (rt : RegIdx) (imm : Imm) (rs : RegIdx)
  /-- LW rt, imm(rs) (43_loadstore.md R162). -/
  | lw (rt : RegIdx) (imm : Imm) (rs : RegIdx)
  /-- Opcode 0x00 with a funct other than 0x20 and 0x22 (44_unrecognized.md R170). -/
  | unrecognizedFunct (rs rt rd shamt : RegIdx) (funct : Code)
  /-- An opcode other than 0x00, 0x04, 0x08, 0x23 and 0x2B (44_unrecognized.md R171). -/
  | unrecognizedOpcode (opcode : Code) (rs rt rd shamt : RegIdx) (funct : Code)
  deriving DecidableEq, Repr

/-- The mnemonics of the opcode table, as the observation record names them (40_cycle.md R126). -/
inductive Mnemonic where
  | ADD | SUB | ADDI | BEQ | SW | LW | UNRECOGNIZED_FUNCT | UNRECOGNIZED_OPCODE
  deriving DecidableEq, Repr

end Sys2Proof
end

