-- ==== Sys2Proof/Decode.lean ====
section
/-! DEFINITION. From bytes to instructions and back: byte order (20_memory.md R51), the field set (30_encoding.md R83),
the dispatch (R87), the decoder over bytes, total and rejecting by name, and the encoder (R82, R88, R93). -/

namespace Sys2Proof

/-- A word from its four bytes, the byte at the lowest address first and most significant (20_memory.md R51). -/
def wordOfBytes (b0 b1 b2 b3 : Byte) : Word := b0 ++ b1 ++ b2 ++ b3

/-- Byte `k` of a word in memory order: byte 0 is bits 31:24, byte 3 is bits 7:0 (20_memory.md R51). -/
def byteOfWord (w : Word) (k : Nat) : Byte := w.extractLsb' (24 - 8 * k) 8

/-- The four bytes of a word as memory holds them, lowest address first (20_memory.md R51). -/
def bytesOfWord (w : Word) : List Byte := [byteOfWord w 0, byteOfWord w 1, byteOfWord w 2, byteOfWord w 3]

/-- DECODE: the seven fields of a word, total and pure (R81, R83). -/
def decodeFields (w : Word) : Fields where
  opcode := w.extractLsb' 26 6
  rs     := w.extractLsb' 21 5
  rt     := w.extractLsb' 16 5
  rd     := w.extractLsb' 11 5
  shamt  := w.extractLsb' 6 5
  funct  := w.extractLsb' 0 6
  imm    := w.extractLsb' 0 16

/-- Encode of R93: the six fields, 6/5/5/5/5/6 bits, in one word. -/
def Fields.encode (f : Fields) : Word := f.opcode ++ f.rs ++ f.rt ++ f.rd ++ f.shamt ++ f.funct

/-- The dispatch of R87, in its order: by opcode, and under opcode 0 by funct. -/
def dispatch (f : Fields) : Instr :=
  if f.opcode = 0x00 then
    if f.funct = 0x20 then .add f.rd f.rs f.rt f.shamt
    else if f.funct = 0x22 then .sub f.rd f.rs f.rt f.shamt
    else .unrecognizedFunct f.rs f.rt f.rd f.shamt f.funct
  else if f.opcode = 0x08 then .addi f.rt f.rs f.imm
  else if f.opcode = 0x04 then .beq f.rs f.rt f.imm
  else if f.opcode = 0x2B then .sw f.rt f.imm f.rs
  else if f.opcode = 0x23 then .lw f.rt f.imm f.rs
  else .unrecognizedOpcode f.opcode f.rs f.rt f.rd f.shamt f.funct

/-- The instruction of a word: every word has one (R87, R92). -/
def decode (w : Word) : Instr := dispatch (decodeFields w)

/-- Why a byte string is no instruction: R80 gives every instruction exactly four bytes. -/
inductive DecodeError where
  /-- Fewer than the four bytes of an instruction word stand there. Raised by `decodeBytes` only; safe. -/
  | tooFewBytes (have_ : Nat)
  deriving DecidableEq, Repr

/-- The decoder over bytes: the instruction of the first four (big-endian, R80, R51) and the bytes after it. -/
def decodeBytes : List Byte → Except DecodeError (Instr × List Byte)
  | b0 :: b1 :: b2 :: b3 :: rest => .ok (decode (wordOfBytes b0 b1 b2 b3), rest)
  | [] => .error (.tooFewBytes 0)
  | [_] => .error (.tooFewBytes 1)
  | [_, _] => .error (.tooFewBytes 2)
  | [_, _, _] => .error (.tooFewBytes 3)

/-- The field set of an R-type word (R82); its `imm` is the overlap `{rd, shamt, funct}` (R83, R93). -/
def Fields.ofSix (opcode : Code) (rs rt rd shamt : RegIdx) (funct : Code) : Fields where
  opcode := opcode
  rs     := rs
  rt     := rt
  rd     := rd
  shamt  := shamt
  funct  := funct
  imm    := rd ++ shamt ++ funct

/-- The field set of an I-type word (R82): `imm = {rd, shamt, funct}` (R93). -/
def Fields.ofImm (opcode : Code) (rs rt : RegIdx) (imm : Imm) : Fields where
  opcode := opcode
  rs     := rs
  rt     := rt
  rd     := imm.extractLsb' 11 5
  shamt  := imm.extractLsb' 6 5
  funct  := imm.extractLsb' 0 6
  imm    := imm

/-- The fields that select and make up each instruction (R88). -/
def Instr.fields : Instr → Fields
  | .add rd rs rt shamt => .ofSix 0x00 rs rt rd shamt 0x20
  | .sub rd rs rt shamt => .ofSix 0x00 rs rt rd shamt 0x22
  | .addi rt rs imm => .ofImm 0x08 rs rt imm
  | .beq rs rt imm => .ofImm 0x04 rs rt imm
  | .sw rt imm rs => .ofImm 0x2B rs rt imm
  | .lw rt imm rs => .ofImm 0x23 rs rt imm
  | .unrecognizedFunct rs rt rd shamt funct => .ofSix 0x00 rs rt rd shamt funct
  | .unrecognizedOpcode opcode rs rt rd shamt funct => .ofSix opcode rs rt rd shamt funct

/-- The encoder: the word of an instruction (R82, R88, R93). -/
def encode (i : Instr) : Word := i.fields.encode

/-- The bytes of an instruction as memory holds them (R80, 20_memory.md R51). -/
def encodeBytes (i : Instr) : List Byte := bytesOfWord (encode i)

/-- The instruction word whose `nbits` low bits are those of `w` and whose other bits are 0. -/
def tableWord (nbits w : Nat) : Word := BitVec.ofNat 32 (w % 2 ^ nbits)

/-- The decoder on an instruction given as the opcode table numbers its bits: the word is laid out big-endian and read
back by `decodeBytes`. No instruction is longer than 32 bits (00_scope.md R10). -/
def decodeTableWord (nbits w : Nat) : Option Instr :=
  if nbits ≤ 32 then
    match decodeBytes (bytesOfWord (tableWord nbits w)) with
    | .ok (i, _) => some i
    | .error _ => none
  else none

end Sys2Proof
end

