-- ==== Sys2Proof/Config.lean ====
section
/-! DEFINITION. The named parameters of the model (00_scope.md R12): the memory size and the cycle budget with the
spec's defaults, and the one point the spec leaves OPEN, FETCH_HALT_COUNTS. -/

namespace Sys2Proof

/-- The parameters of a run (R12). They are no architectural state (10_state.md R21): State carries them because the
type of `step` is fixed, so that a statement over all states is one over all their values. No step changes them.
Log 1, DESIGN CHOICE. -/
structure Params where
  /-- MEM_SIZE, the number of bytes of memory (R12, 20_memory.md R50). -/
  memSize   : Nat
  /-- MAX_CYCLES, the cycle budget, the value at the `max_cycles` port (R12, 10_state.md R38, 40_cycle.md R121). -/
  maxCycles : Count
  deriving DecidableEq, Repr

/-- The bounds R12 sets for MEM_SIZE. -/
abbrev Params.valid (p : Params) : Prop := 4 ≤ p.memSize ∧ p.memSize ≤ 2 ^ 30

/-- The values the source gives: 4096 bytes, 1000 cycles (R12; log 1: the requester calls both unaudited). -/
def Config.defaults : Params := { memSize := 4096, maxCycles := 1000 }

/-- FETCH_HALT_COUNTS: whether the cycle that halts on an out-of-bounds fetch is a completed cycle. The spec leaves it
OPEN (R12, 40_cycle.md R113, 92_eei_decisions.md D5), so it has no value here and every claim holds for both.
Log 2, DESIGN CHOICE of the form. -/
opaque Config.fetchHaltCounts : Bool

end Sys2Proof
end

