-- ==== Sys2Proof/Machine/State.lean ====
section
/-! DEFINITION. The state of the machine as plain data: the architectural state of 10_state.md R20, the observation
records it has emitted (40_cycle.md R126), the parameters it runs under (00_scope.md R12), and reset (R37). -/

namespace Sys2Proof.Machine

/-- The event tag of a cycle: NONE or one of the exceptional conditions of 60_exceptions.md R181 (40_cycle.md R116). -/
inductive Event where
  | none
  | fetchOutOfBounds
  | unrecognizedOpcode
  | unrecognizedFunct
  | loadOutOfBounds
  | storeOutOfBounds
  deriving DecidableEq, Repr

/-- The operands an observation record names, in the tuple order of 40_cycle.md R127. -/
inductive Operands where
  /-- ADD and SUB: `(rd, rs, rt)`. -/
  | registers (rd rs rt : RegIdx)
  /-- ADDI: `(rt, rs, sext_32(imm))`. -/
  | immediate (rt rs : RegIdx) (imm : Word)
  /-- BEQ: `(rs, rt, sext_32(imm))`. -/
  | branch (rs rt : RegIdx) (imm : Word)
  /-- LW and SW: `(rt, sext_32(imm), rs)`. -/
  | memory (rt : RegIdx) (imm : Word) (rs : RegIdx)
  /-- Unrecognised encodings: `(opcode, funct)`. -/
  | codes (opcode funct : Code)
  deriving DecidableEq, Repr

/-- The observation record of a completed cycle (40_cycle.md R126). `none` is the field's absence, in the record of an
out-of-bounds fetch (log 9). -/
structure Obs where
  pcBefore : Word
  word     : Option Word
  mnemonic : Option Mnemonic
  operands : Option Operands
  event    : Event
  regs     : Vector Word 32
  memWord  : Option Word
  deriving DecidableEq, Repr

/-- Memory: (address, byte) pairs, addresses strictly rising, no entry equal to what an unlisted address reads as
(`Memory.wf` in Ops.lean). -/
abbrev Memory := List Host.Cell

/-- The state. `mem`, `x`, `pc`, `cycle` and `running` are the architectural state, the whole of it (R20); the other
fields are the model's own (INVENTORY.md, State). -/
structure State where
  /-- Memory (R20, 20_memory.md R50). -/
  mem     : Memory
  /-- The register file (R20, R22). -/
  x       : Vector Word 32
  /-- The program counter (R20, R26). -/
  pc      : Word
  /-- The cycle counter (R20, R31). -/
  cycle   : Count
  /-- The running flag (R20, R30). -/
  running : Bool
  /-- The tag EXECUTE returned, until the cycle's record takes it (40_cycle.md R116). Log 4, DESIGN CHOICE. -/
  event   : Event
  /-- The records emitted so far, newest first (40_cycle.md R126, R128). Log 3, DESIGN CHOICE. -/
  trace   : List Obs
  /-- The parameters of the run (00_scope.md R12). Log 1, DESIGN CHOICE. -/
  params  : Params
  deriving DecidableEq, Repr

/-- The reasons a step can stop with a fault: there is none. "No error is ever thrown across the loop boundary; all
conditions are handled by flag-setting or by skipping" (60_exceptions.md R180); a halt is `running = false`, a next
state. Log 16; safe. -/
inductive Fault where
  deriving DecidableEq, Repr

/-- The reasons a step can be refused. -/
inductive Refusal where
  /-- Raised by `exec` for an instruction without a meaning; no instruction of this model is one. Safe. -/
  | notModelled (mnemonic : String)
  deriving DecidableEq, Repr

/-- The values of R37 and 70_reset_and_hazards.md R210 under the parameters `p`; nothing has been observed yet. -/
def State.resetWith (p : Params) : State where
  mem     := []
  x       := Vector.replicate 32 0
  pc      := 0
  cycle   := 0
  running := true
  event   := .none
  trace   := []
  params  := p

/-- The machine right after reset, before the launch image is written (R37), with the default parameters. -/
def State.reset : State := State.resetWith Config.defaults

end Sys2Proof.Machine
end

