-- ==== Sys2Proof/Machine/Ops.lean ====
section
/-! DEFINITION. The shared operations: bytes of memory in canonical form, the memory primitives of 20_memory.md, the
register file, the program counter, `halt`, what a meaning returns, and the loader (70_reset_and_hazards.md R214).
There is no exception entry and no return from one to share: the core has no traps (60_exceptions.md R180, R185). -/

namespace Sys2Proof.Machine

/-! ### Memory as data -/

/-- What an address nothing lists reads as: memory is zero-initialised (10_state.md R37, 20_memory.md R50). -/
def Memory.unlisted : Byte := 0

/-- `mem[a]`. -/
def Memory.read : Memory → Nat → Byte
  | [], _ => Memory.unlisted
  | (k, b) :: m, a => if k = a then b else Memory.read m a

/-- `mem[a] <- b`, keeping the canonical form. -/
def Memory.write : Memory → Nat → Byte → Memory
  | [], a, b => if b = Memory.unlisted then [] else [(a, b)]
  | (k, c) :: m, a, b =>
    if a < k then
      if b = Memory.unlisted then (k, c) :: m else (a, b) :: (k, c) :: m
    else if a = k then
      if b = Memory.unlisted then m else (a, b) :: m
    else (k, c) :: Memory.write m a b

/-- The canonical form: addresses strictly rising, no entry equal to an unlisted byte. -/
abbrev Memory.wf (m : Memory) : Prop :=
  m.Pairwise (fun c d => c.1 < d.1) ∧ ∀ c ∈ m, c.2 ≠ Memory.unlisted

/-- Every listed address is one of the `size` bytes that exist (20_memory.md R50, R61). -/
abbrev Memory.within (size : Nat) (m : Memory) : Prop := ∀ c ∈ m, c.1 < size

/-! ### The memory primitives (20_memory.md) -/

/-- InBounds of R55, on integers: no wrap. Log 7, UNVERIFIED. -/
def State.inBounds (s : State) (a : Nat) : Bool := a + 3 < s.params.memSize

/-- MemReadByte (R52); `none` is OUT_OF_BOUNDS. Log 12, UNVERIFIED. -/
def State.memReadByte (s : State) (a : Nat) : Option Byte :=
  if a < s.params.memSize then some (s.mem.read a) else none

/-- MemWriteByte (R52): out of bounds it does nothing. Log 12, UNVERIFIED. -/
def State.memWriteByte (s : State) (a : Nat) (b : Byte) : State :=
  if a < s.params.memSize then { s with mem := s.mem.write a b } else s

/-- MemRead(a, 4) (R53), big-endian (R51), over the byte primitive (R52); `none` is OUT_OF_BOUNDS. -/
def State.memRead (s : State) (a : Nat) : Option Word :=
  if s.inBounds a then do
    let b0 ← s.memReadByte a
    let b1 ← s.memReadByte (a + 1)
    let b2 ← s.memReadByte (a + 2)
    let b3 ← s.memReadByte (a + 3)
    return wordOfBytes b0 b1 b2 b3
  else none

/-- MemWrite(a, 4, v) (R54), big-endian (R51), over the byte primitive (R52); `none` is OUT_OF_BOUNDS: no byte is
written, not even one in bounds. -/
def State.memWrite (s : State) (a : Nat) (v : Word) : Option State :=
  if s.inBounds a then
    some ((((s.memWriteByte a (byteOfWord v 0)).memWriteByte (a + 1) (byteOfWord v 1)).memWriteByte (a + 2)
      (byteOfWord v 2)).memWriteByte (a + 3) (byteOfWord v 3))
  else none

/-! ### Registers, program counter, running flag -/

/-- `x[r]` (00_scope.md R15). -/
def State.reg (s : State) (r : RegIdx) : Word := s.x[r.toNat]'r.isLt

/-- `x[r] <- v` (00_scope.md R15): any register, register 0 among them (10_state.md R23). Log 13. -/
def State.setReg (s : State) (r : RegIdx) (v : Word) : State := { s with x := s.x.set r.toNat v r.isLt }

/-- `x[0] <- 0`, what the machine loop does after every execute step (40_cycle.md R118). -/
def State.forceZero (s : State) : State := s.setReg 0 0

/-- `pc <- t` (00_scope.md R15). -/
def State.setPc (s : State) (t : Word) : State := { s with pc := t }

/-- What EXECUTE returns: the state and its event tag (40_cycle.md R116). -/
def State.returning (s : State) (e : Event) : Host.Outcome State Fault Refusal := .next { s with event := e }

/-- `halt(cause)`: clears the running flag; the cause goes to the observation record (00_scope.md R15, R184). -/
def State.halt (s : State) : State := { s with running := false }

/-! ### The loader (70_reset_and_hazards.md R214) -/

/-- Writes the words from address `a` on, one after the other, and stops silently at the first that would leave memory
(R214). -/
def State.loadFrom (s : State) (a : Nat) : List Word → State
  | [] => s
  | w :: ws =>
    match s.memWrite a w with
    | some t => t.loadFrom (a + 4) ws
    | none => s

/-- The program-load phase: the launch image from address 0 (R212, R214). -/
def State.loadImage (s : State) (image : List Word) : State := s.loadFrom 0 image

end Sys2Proof.Machine
end

