-- ==== Sys2Proof/Machine/Flags.lean ====
section
/-! DEFINITION. The machine's one flag and what is read off it. There are no condition codes (10_state.md R32): the
running flag and the cycle budget make HALTED (40_cycle.md R123), and the final state of a run tells why it stopped
(R124). The codes of the exceptional conditions stand here too (60_exceptions.md R181). -/

namespace Sys2Proof.Machine

/-- HALTED: not running, or the budget is exhausted; tested before every cycle (40_cycle.md R121, R123). Log 6,
UNVERIFIED. -/
def State.halted (s : State) : Bool := !s.running || s.params.maxCycles.toNat ≤ s.cycle.toNat

/-- The code of each exceptional condition (60_exceptions.md R181). -/
def Event.code : Event → Option Nat
  | .none => Option.none
  | .fetchOutOfBounds => some 1
  | .unrecognizedOpcode => some 2
  | .unrecognizedFunct => some 3
  | .loadOutOfBounds => some 4
  | .storeOutOfBounds => some 5

/-- Why a run stopped (40_cycle.md R124). -/
inductive StopReason where
  | unrecognizedOpcode
  | fetchOutOfBounds
  | budgetExhausted
  deriving DecidableEq, Repr

/-- The stop reason, read off a final state and its last record (40_cycle.md R124); `none` while the run goes on. -/
def State.stopReason (s : State) : Option StopReason :=
  if s.halted then
    if s.running then some .budgetExhausted
    else if s.trace.head?.map (·.event) = some .unrecognizedOpcode then some .unrecognizedOpcode
    else some .fetchOutOfBounds
  else Option.none

end Sys2Proof.Machine
end

