-- ==== Sys2Proof/Machine/Operands.lean ====
section
/-! DEFINITION. The operand forms (30_encoding.md R84 to R86, 43_loadstore.md R160), the operands of an observation
record (40_cycle.md R127), and the spellings of registers and instructions (30_encoding.md R94, R95). -/

namespace Sys2Proof.Machine

/-- `sext_32(imm)` (00_scope.md R15, 30_encoding.md R84): every use of an immediate sign-extends it. -/
def sext32 (imm : Imm) : Word := imm.signExtend 32

/-- `zext_32(imm)` (00_scope.md R15); no instruction uses it (30_encoding.md R84). -/
def zext32 (imm : Imm) : Word := imm.zeroExtend 32

/-- The BEQ offset `sext_32(imm) << 2` (30_encoding.md R85), modulo 2^32. Log 11, UNVERIFIED. -/
def branchOffset (imm : Imm) : Word := sext32 imm <<< 2

/-- `EA = x[rs] + sext_32(imm)` modulo 2^32, read unsigned (43_loadstore.md R160, 20_memory.md R55). -/
def State.effectiveAddress (s : State) (rs : RegIdx) (imm : Imm) : Nat := (s.reg rs + sext32 imm).toNat

end Sys2Proof.Machine

namespace Sys2Proof

/-- The mnemonic a record names for each instruction (40_cycle.md R126). -/
def Instr.mnemonic : Instr → Mnemonic
  | .add _ _ _ _ => .ADD
  | .sub _ _ _ _ => .SUB
  | .addi _ _ _ => .ADDI
  | .beq _ _ _ => .BEQ
  | .sw _ _ _ => .SW
  | .lw _ _ _ => .LW
  | .unrecognizedFunct _ _ _ _ _ => .UNRECOGNIZED_FUNCT
  | .unrecognizedOpcode _ _ _ _ _ _ => .UNRECOGNIZED_OPCODE

/-- The operands a record names for each instruction (40_cycle.md R127). -/
def Instr.operands : Instr → Machine.Operands
  | .add rd rs rt _ => .registers rd rs rt
  | .sub rd rs rt _ => .registers rd rs rt
  | .addi rt rs imm => .immediate rt rs (Machine.sext32 imm)
  | .beq rs rt imm => .branch rs rt (Machine.sext32 imm)
  | .sw rt imm rs => .memory rt (Machine.sext32 imm) rs
  | .lw rt imm rs => .memory rt (Machine.sext32 imm) rs
  | .unrecognizedFunct _ _ _ _ funct => .codes 0x00 funct
  | .unrecognizedOpcode opcode _ _ _ _ funct => .codes opcode funct

/-- The index to name table of R95; names have no effect on any value (00_scope.md R18). Log 18, PRESUMED. -/
def registerNames : List String :=
  ["$zero", "$at", "$v0", "$v1", "$a0", "$a1", "$a2", "$a3"] ++
  ["$t0", "$t1", "$t2", "$t3", "$t4", "$t5", "$t6", "$t7"] ++
  ["$s0", "$s1", "$s2", "$s3", "$s4", "$s5", "$s6", "$s7"] ++
  ["$t8", "$t9", "$k0", "$k1", "$gp", "$sp", "$fp", "$ra"]

/-- The name of a register (R95). -/
def registerName (r : RegIdx) : String := registerNames.getD r.toNat ""

/-- The assembly spelling of R94; an unrecognised word has none. Log 18, PRESUMED. -/
def Instr.assembly : Instr → Option String
  | .add rd rs rt _ =>
    some ("ADD " ++ registerName rd ++ ", " ++ registerName rs ++ ", " ++ registerName rt)
  | .sub rd rs rt _ =>
    some ("SUB " ++ registerName rd ++ ", " ++ registerName rs ++ ", " ++ registerName rt)
  | .addi rt rs imm =>
    some ("ADDI " ++ registerName rt ++ ", " ++ registerName rs ++ ", " ++ toString imm.toInt)
  | .beq rs rt imm =>
    some ("BEQ " ++ registerName rs ++ ", " ++ registerName rt ++ ", " ++ toString imm.toInt)
  | .sw rt imm rs =>
    some ("SW " ++ registerName rt ++ ", " ++ toString imm.toInt ++ "(" ++ registerName rs ++ ")")
  | .lw rt imm rs =>
    some ("LW " ++ registerName rt ++ ", " ++ toString imm.toInt ++ "(" ++ registerName rs ++ ")")
  | .unrecognizedFunct _ _ _ _ _ => none
  | .unrecognizedOpcode _ _ _ _ _ _ => none

end Sys2Proof
end

