-- ==== Sys2Proof/Machine/Cycle.lean ====
section
/-! DEFINITION. What the machine loop does around EXECUTE in one cycle (40_cycle.md R111): the fetch and its advance
(R112, R114), the forcing of register 0 (R118), the count (R120) and the observation record (R126). -/

namespace Sys2Proof.Machine

/-- FETCH: the word at pc, `none` out of bounds (R112). -/
def State.fetch (s : State) : Option Word := s.memRead s.pc.toNat

/-- `pc <- P + 4` modulo 2^32, before execute (R114, 10_state.md R28). Log 11, UNVERIFIED. -/
def State.advancePc (s : State) : State := s.setPc (s.pc + 4)

/-- `cycle <- cycle + 1` (R120). -/
def State.countCycle (s : State) : State := { s with cycle := s.cycle + 1 }

/-- OBSERVE: one more record; it changes no architectural state (R119). -/
def State.emit (s : State) (r : Obs) : State := { s with trace := r :: s.trace }

/-- The record of a cycle that fetched `w` at `p`, read off the state after its execute (R126, R127). Log 8,
UNVERIFIED. -/
def State.record (s : State) (p w : Word) : Obs where
  pcBefore := p
  word     := some w
  mnemonic := some (decode w).mnemonic
  operands := some (decode w).operands
  event    := s.event
  regs     := s.x
  memWord  := s.memRead p.toNat

/-- The record of a counted out-of-bounds fetch at `p` (R113, R126). Log 9, DEDUCED. -/
def State.fetchRecord (s : State) (p : Word) : Obs where
  pcBefore := p
  word     := none
  mnemonic := none
  operands := none
  event    := .fetchOutOfBounds
  regs     := s.x
  memWord  := none

/-- The cycle of an out-of-bounds fetch (R112, R113): `running <- false`, and the count and the record only if
FETCH_HALT_COUNTS. pc stays the fetch address. Log 2 and log 5. -/
def State.fetchHalt (s : State) : State :=
  if Config.fetchHaltCounts then s.halt.countCycle.emit (s.halt.countCycle.fetchRecord s.pc) else s.halt

/-- The end of a cycle that fetched `w` at `p`, after its execute: register 0 is forced to zero (R118), the cycle is
counted (R120), its record is emitted with the event tag (R119, R126), and the tag is spent. -/
def State.retire (s : State) (p w : Word) : State :=
  let t := s.forceZero.countCycle
  { t.emit (t.record p w) with event := .none }

/-- For `withFetchWord`: the least change that lets the next step fetch. The machine runs, pc names a word of memory,
and the budget admits a cycle; each stays as it is where it already does so. Log 17, DESIGN CHOICE. -/
def State.readyToFetch (s : State) : State :=
  { s with
    running := true
    pc := if s.inBounds s.pc.toNat then s.pc else 0
    cycle := if s.cycle.toNat < s.params.maxCycles.toNat then s.cycle else 0
    params := { s.params with maxCycles := if s.params.maxCycles = 0 then 1 else s.params.maxCycles } }

/-- The word `w` stored where the next step fetches (20_memory.md R51, R54). -/
def State.placeWord (s : State) (w : Word) : State := (s.memWrite s.pc.toNat w).getD s

end Sys2Proof.Machine
end

