-- ==== Sys2Proof/Machine/Arith.lean ====
section
/-! DEFINITION. ADD, SUB, ADDI (41_arith.md). All arithmetic is modulo 2^32 and sets no flag (R143, R144). -/

namespace Sys2Proof.Machine

/-- ADD (R140): `x[rd] <- x[rs] + x[rt]; return NONE`. -/
def execAdd (rd rs rt : RegIdx) (s : State) : Host.Outcome State Fault Refusal :=
  (s.setReg rd (s.reg rs + s.reg rt)).returning .none

/-- SUB (R141): `x[rd] <- x[rs] - x[rt]; return NONE`. -/
def execSub (rd rs rt : RegIdx) (s : State) : Host.Outcome State Fault Refusal :=
  (s.setReg rd (s.reg rs - s.reg rt)).returning .none

/-- ADDI (R142): `x[rt] <- x[rs] + sext_32(imm); return NONE`. -/
def execAddi (rt rs : RegIdx) (imm : Imm) (s : State) : Host.Outcome State Fault Refusal :=
  (s.setReg rt (s.reg rs + sext32 imm)).returning .none

end Sys2Proof.Machine
end

