-- ==== Sys2Proof/Machine/Branch.lean ====
section
/-! DEFINITION. BEQ (42_branch.md), the only control transfer (R154); no delay slot (R152). -/

namespace Sys2Proof.Machine

/-- BEQ (R150): `if x[rs] == x[rt] then pc <- pc + (sext_32(imm) << 2); return NONE`. The pc it reads is already the
fetch advance `P + 4`. -/
def execBeq (rs rt : RegIdx) (imm : Imm) (s : State) : Host.Outcome State Fault Refusal :=
  (if s.reg rs = s.reg rt then s.setPc (s.pc + branchOffset imm) else s).returning .none

end Sys2Proof.Machine
end

