-- ==== Sys2Proof/Machine/LoadStore.lean ====
section
/-! DEFINITION. SW and LW (43_loadstore.md): base plus displacement, no alignment term, no effect out of bounds. -/

namespace Sys2Proof.Machine

/-- SW (R161): the word `x[rt]` at EA; out of bounds no byte is written and the tag says so. -/
def execSw (rt : RegIdx) (imm : Imm) (rs : RegIdx) (s : State) : Host.Outcome State Fault Refusal :=
  match s.memWrite (s.effectiveAddress rs imm) (s.reg rt) with
  | some t => t.returning .none
  | none => s.returning .storeOutOfBounds

/-- LW (R162): `x[rt]` gets the word at EA; out of bounds it keeps its value and the tag says so. -/
def execLw (rt : RegIdx) (imm : Imm) (rs : RegIdx) (s : State) : Host.Outcome State Fault Refusal :=
  match s.memRead (s.effectiveAddress rs imm) with
  | some w => (s.setReg rt w).returning .none
  | none => s.returning .loadOutOfBounds

end Sys2Proof.Machine
end

