-- ==== Sys2Proof/Machine/Unrecognized.lean ====
section
/-! DEFINITION. The two classes of unrecognised words (44_unrecognized.md). -/

namespace Sys2Proof.Machine

/-- UNRECOGNIZED_FUNCT (R170): reported, and nothing else; the machine goes on. Log 15, UNVERIFIED. -/
def execUnrecognizedFunct (s : State) : Host.Outcome State Fault Refusal :=
  s.returning .unrecognizedFunct

/-- UNRECOGNIZED_OPCODE (R171): clears the running flag, and nothing else; pc keeps the fetch advance. Log 5,
UNVERIFIED. -/
def execUnrecognizedOpcode (s : State) : Host.Outcome State Fault Refusal :=
  s.halt.returning .unrecognizedOpcode

end Sys2Proof.Machine
end

