-- ==== Sys2Proof/Machine/Dispatch.lean ====
section
/-! DEFINITION. EXECUTE: one arm for each instruction (40_cycle.md R116, 30_encoding.md R87). -/

namespace Sys2Proof.Machine

def exec (i : Instr) (s : State) : Host.Outcome State Fault Refusal :=
  match i with
  | .add rd rs rt _ => Sys2Proof.Machine.execAdd rd rs rt s
  | .sub rd rs rt _ => Sys2Proof.Machine.execSub rd rs rt s
  | .addi rt rs imm => Sys2Proof.Machine.execAddi rt rs imm s
  | .beq rs rt imm => Sys2Proof.Machine.execBeq rs rt imm s
  | .sw rt imm rs => Sys2Proof.Machine.execSw rt imm rs s
  | .lw rt imm rs => Sys2Proof.Machine.execLw rt imm rs s
  | .unrecognizedFunct _ _ _ _ _ => Sys2Proof.Machine.execUnrecognizedFunct s
  | .unrecognizedOpcode _ _ _ _ _ _ => Sys2Proof.Machine.execUnrecognizedOpcode s

end Sys2Proof.Machine
end

