-- ==== Sys2Proof/Machine/Step.lean ====
section
/-! DEFINITION. One step: one cycle of the machine as the one atomic transition of 40_cycle.md R110 and R111. -/

namespace Sys2Proof.Machine

/-- Step of R111. In HALTED it changes nothing (R123); an out-of-bounds fetch halts (R112); otherwise the fetched word
is decoded and executed at `pc = P + 4` and the cycle completes (R114 to R120). -/
def step (s : State) : Host.Outcome State Fault Refusal :=
  if s.halted then .next s
  else
    match s.fetch with
    | none => .next s.fetchHalt
    | some w =>
      match exec (decode w) s.advancePc with
      | .next t => .next (t.retire s.pc w)
      | .fault r => .fault r
      | .refused r => .refused r

/-- The state whose very next step fetches and runs the instruction given as the opcode table numbers its bits. It
stands for the loader's work (log 17). -/
def State.withFetchWord (s : State) (nbits w : Nat) : State := s.readyToFetch.placeWord (tableWord nbits w)

end Sys2Proof.Machine
end

