-- ==== Sys2Proof/Machine/Block.lean ====
section
/-! DEFINITION. The block around the step: reset and start-up (70_reset_and_hazards.md R210 to R214) and the ports of
10_state.md R38. -/

namespace Sys2Proof.Machine

/-- Start-up (R212): reset, then the load phase; the state the first cycle starts from (R213). Log 10. -/
def State.launch (p : Params) (image : List Word) : State := (State.resetWith p).loadImage image

/-- The block: the core, and where it is in the start-up of R212. -/
structure Block where
  /-- The core's state. -/
  core        : State
  /-- Reset has happened and the launch image has not been applied yet (R211, R212); no state of the core. Log 19,
  DESIGN CHOICE. -/
  loadPending : Bool
  deriving DecidableEq, Repr

/-- The state a cycle starts from: after a reset the launch image is applied first, once (R211, R212). -/
def Block.cycleStart (image : List Word) (b : Block) : State :=
  if b.loadPending then b.core.loadImage image else b.core

/-- One rising clock edge (R211, R212, R38). With `rst` every piece of state takes its reset value, in any state, and no
cycle runs; at the first edge without it the launch image is applied and then the first cycle runs; at every later one
a cycle runs. The parameters stay. Log 10, UNVERIFIED, and log 19, DESIGN CHOICE. -/
def clockEdge (image : List Word) (rst : Bool) (b : Block) : Host.Outcome Block Fault Refusal :=
  if rst then .next { core := State.resetWith b.core.params, loadPending := true }
  else
    match step (b.cycleStart image) with
    | .next t => .next { core := t, loadPending := false }
    | .fault r => .fault r
    | .refused r => .refused r

/-- One clock edge after the other, under the values of `rst` at each. -/
def clockEdges (image : List Word) : List Bool → Block → Host.Outcome Block Fault Refusal
  | [], b => .next b
  | rst :: rsts, b =>
    match clockEdge image rst b with
    | .next c => clockEdges image rsts c
    | .fault r => .fault r
    | .refused r => .refused r

/-- The outputs that are read off the state (R38); `regs_out` and `mem_out` are read-only views. -/
structure Outputs where
  halted   : Bool
  running  : Bool
  pcOut    : Word
  cycleOut : Count
  regsOut  : Vector Word 32
  deriving DecidableEq, Repr

/-- The output ports of R38. -/
def State.outputs (s : State) : Outputs where
  halted   := s.halted
  running  := s.running
  pcOut    := s.pc
  cycleOut := s.cycle
  regsOut  := s.x

/-- The read port `mem_out` (R38): the byte at a 32-bit address, if it exists. R38 gives the port no widths; one byte for
each address is the model's choice. Log 20, DESIGN CHOICE. -/
def State.memOut (s : State) (a : Word) : Option Byte := s.memReadByte a.toNat

/-- The port `obs` with its valid strobe after the step from `s` to `t` (R38, R126): the record of the cycle just
completed, `none` where the step emitted none. -/
def obsPort (s t : State) : Option Obs :=
  if t.trace.length = s.trace.length + 1 then t.trace.head? else none

/-- The total a run's summary reports (40_cycle.md R125). -/
def State.totalCycles (s : State) : Nat := s.cycle.toNat

end Sys2Proof.Machine
end

