-- ==== Sys2Proof/WellFormed.lean ====
section
/-! DEFINITION. When a term of Instr is the instruction of some word: an unrecognised term must not hold a code that
the dispatch recognises (30_encoding.md R87, R90). Register indices and immediates have no illegal value (R86). -/

namespace Sys2Proof

/-- The opcodes the dispatch of R87 knows. -/
def recognizedOpcodes : List Code := [0x00, 0x04, 0x08, 0x23, 0x2B]

/-- The functs the dispatch of R87 knows under opcode 0. -/
def recognizedFuncts : List Code := [0x20, 0x22]

/-- The well-formedness check of an instruction. -/
def Instr.wellFormed : Instr → Bool
  | .add _ _ _ _ => true
  | .sub _ _ _ _ => true
  | .addi _ _ _ => true
  | .beq _ _ _ => true
  | .sw _ _ _ => true
  | .lw _ _ _ => true
  | .unrecognizedFunct _ _ _ _ funct => !recognizedFuncts.contains funct
  | .unrecognizedOpcode opcode _ _ _ _ _ => !recognizedOpcodes.contains opcode

end Sys2Proof
end

