-- ==== Sys2Proof/Safety.lean ====
section
/-! DEFINITION. The terms the statements are written in: when a state fetches a word, what stays the same, the
invariant of the machine, and the flat machine: the step of 40_cycle.md R111 written a second time, over natural
numbers and plain functions, without the model's decoder, memory or operations. -/

namespace Sys2Proof.Machine

/-! ### When a cycle runs -/

/-- A cycle starts and its fetch yields `w` (40_cycle.md R114, R121). -/
abbrev State.fetches (s : State) (w : Word) : Prop :=
  s.running = true ∧ s.cycle.toNat < s.params.maxCycles.toNat ∧ s.memRead s.pc.toNat = some w

/-- A cycle starts and its fetch is out of bounds (R112, R121). -/
abbrev State.fetchesOutside (s : State) : Prop :=
  s.running = true ∧ s.cycle.toNat < s.params.maxCycles.toNat ∧ s.params.memSize ≤ s.pc.toNat + 3

/-! ### What stays the same -/

/-- Every byte of memory reads as before. -/
abbrev sameMemory (s t : State) : Prop := ∀ a, t.mem.read a = s.mem.read a

/-- Every byte outside the word at `a` reads as before. -/
abbrev sameMemoryOutside (a : Nat) (s t : State) : Prop :=
  ∀ b, b < a ∨ a + 4 ≤ b → t.mem.read b = s.mem.read b

/-- Every register but `r` is unchanged. -/
abbrev sameRegsBut (r : RegIdx) (s t : State) : Prop := ∀ q, q ≠ r → t.reg q = s.reg q

/-- Every register is unchanged. -/
abbrev sameRegs (s t : State) : Prop := ∀ q, t.reg q = s.reg q

/-- What EXECUTE never touches: the cycle counter, the records, the parameters. -/
abbrev sameLoop (s t : State) : Prop := t.cycle = s.cycle ∧ t.trace = s.trace ∧ t.params = s.params

/-- `t` ends a completed cycle of `s` that fetched `w` and had the event `e`: counted once, recorded once (R120, R126),
register 0 zero (R118), the tag spent, the parameters unchanged. -/
abbrev State.completes (s : State) (w : Word) (e : Event) (t : State) : Prop :=
  t.cycle = s.cycle + 1 ∧ t.params = s.params ∧ t.event = .none ∧ t.reg 0 = 0 ∧
    ∃ r : Obs, t.trace = r :: s.trace ∧ r.pcBefore = s.pc ∧ r.word = some w ∧ r.event = e

/-- The bits `hi` down to `lo` of a word as a register index (00_scope.md R14). -/
abbrev regField (w : Word) (lo : Nat) : RegIdx := w.extractLsb' lo 5

/-- The next cycle of `s` runs an SW in bounds that stores to one of the four bytes from `a` on (20_memory.md R54). -/
abbrev State.storesInto (s : State) (a : Nat) : Prop :=
  ∃ w rt imm rs, s.fetches w ∧ decode w = .sw rt imm rs ∧ s.effectiveAddress rs imm + 3 < s.params.memSize ∧
    s.effectiveAddress rs imm < a + 4 ∧ a < s.effectiveAddress rs imm + 4

/-! ### The invariant -/

/-- What holds of every state a run reaches: the parameters are legal (00_scope.md R12), memory is canonical and inside
its size, register 0 is zero (10_state.md R23), pc is a multiple of 4 (R29), the budget is not exceeded (R31), one
record stands for each counted cycle (40_cycle.md R120, R126), no tag is left over, and while the machine runs no
record tells of a halt (R30). -/
structure State.Inv (s : State) : Prop where
  params_valid : s.params.valid
  mem_wf       : s.mem.wf
  mem_within   : s.mem.within s.params.memSize
  zero_reg     : s.reg 0 = 0
  pc_aligned   : s.pc.toNat % 4 = 0
  cycle_le     : s.cycle.toNat ≤ s.params.maxCycles.toNat
  trace_length : s.trace.length = s.cycle.toNat
  event_none   : s.event = .none
  no_halt_seen : s.running = true → ∀ r ∈ s.trace, r.event ≠ .unrecognizedOpcode ∧ r.event ≠ .fetchOutOfBounds

/-- The fields of R20 that an instruction can see: registers, pc, memory; and the running flag. -/
abbrev sameMachine (s t : State) : Prop :=
  t.mem = s.mem ∧ t.x = s.x ∧ t.pc = s.pc ∧ t.running = s.running

end Sys2Proof.Machine

/-! ### The flat machine -/

namespace Sys2Proof.Flat

/-- The tuple of 10_state.md R20 as plain numbers and functions: `mem a` and `x r` are below 2^8 and 2^32. -/
structure Tuple where
  mem     : Nat → Nat
  x       : Nat → Nat
  pc      : Nat
  cycle   : Nat
  running : Bool

/-- An integer modulo 2^32 (00_scope.md R15). -/
def wrap (z : Int) : Nat := (z % 2 ^ 32).toNat

/-- `w[hi:lo]` (00_scope.md R14). -/
def slice (w hi lo : Nat) : Nat := w / 2 ^ lo % 2 ^ (hi + 1 - lo)

/-- The integer a 16-bit two's-complement value denotes (30_encoding.md R84). -/
def simm (v : Nat) : Int := if v < 2 ^ 15 then v else (v : Int) - 2 ^ 16

/-- The integer a 32-bit value denotes in two's complement (00_scope.md R15). -/
def sint (v : Nat) : Int := if v < 2 ^ 31 then v else (v : Int) - 2 ^ 32

/-- The big-endian word at `a` (20_memory.md R51). -/
def wordAt (mem : Nat → Nat) (a : Nat) : Nat :=
  mem a * 2 ^ 24 + mem (a + 1) * 2 ^ 16 + mem (a + 2) * 2 ^ 8 + mem (a + 3)

/-- The memory with the big-endian word `v` at `a` (20_memory.md R54). -/
def storeWord (mem : Nat → Nat) (a v : Nat) : Nat → Nat := fun b =>
  if b = a then slice v 31 24 else if b = a + 1 then slice v 23 16
  else if b = a + 2 then slice v 15 8 else if b = a + 3 then slice v 7 0 else mem b

/-- The register file with `v` in register `r`. -/
def setX (x : Nat → Nat) (r v : Nat) : Nat → Nat := fun q => if q = r then v else x q

/-- EXECUTE on the word `w`, pc already advanced (R87, R140 to R142, R150, R161, R162, R170, R171). Data addresses are
the integer sum of R56, in bounds iff it lies in 0..MEM_SIZE-4. -/
def execute (memSize : Nat) (w : Nat) (f : Tuple) : Tuple :=
  let opcode := slice w 31 26
  let rs := slice w 25 21
  let rt := slice w 20 16
  let rd := slice w 15 11
  let funct := slice w 5 0
  let imm := simm (slice w 15 0)
  let ea := sint (f.x rs) + imm
  let inside := 0 ≤ ea ∧ ea + 4 ≤ (memSize : Int)
  if opcode = 0x00 then
    if funct = 0x20 then { f with x := setX f.x rd (wrap ((f.x rs : Int) + f.x rt)) }
    else if funct = 0x22 then { f with x := setX f.x rd (wrap ((f.x rs : Int) - f.x rt)) }
    else f
  else if opcode = 0x08 then { f with x := setX f.x rt (wrap ((f.x rs : Int) + imm)) }
  else if opcode = 0x04 then if f.x rs = f.x rt then { f with pc := wrap ((f.pc : Int) + 4 * imm) } else f
  else if opcode = 0x2B then if inside then { f with mem := storeWord f.mem ea.toNat (f.x rt) } else f
  else if opcode = 0x23 then if inside then { f with x := setX f.x rt (wordAt f.mem ea.toNat) } else f
  else { f with running := false }

/-- Step of R111 under its three parameters, records aside. -/
def step (memSize maxCycles : Nat) (fetchHaltCounts : Bool) (f : Tuple) : Tuple :=
  if f.running = false ∨ maxCycles ≤ f.cycle then f
  else if memSize ≤ f.pc + 3 then
    { f with running := false, cycle := if fetchHaltCounts then f.cycle + 1 else f.cycle }
  else
    let g := execute memSize (wordAt f.mem f.pc) { f with pc := wrap ((f.pc : Int) + 4) }
    { g with x := setX g.x 0 0, cycle := g.cycle + 1 }

/-- The flat machine's state that a state of the model stands for. -/
def view (s : Machine.State) : Tuple where
  mem a   := (s.mem.read a).toNat
  x r     := (s.x[r]?.getD 0).toNat
  pc      := s.pc.toNat
  cycle   := s.cycle.toNat
  running := s.running

end Sys2Proof.Flat
end

