-- ==== Sys2Proof/Certificates/Slice0/Obligations.lean ====
section
/-! DEFINITION. The statements for the provers. Each docstring names the rules of spec/ it formalises; where a clause
rests on a point the spec marks as its own decision or derivation, the docstring says so. -/

open Sys2Proof Sys2Proof.Machine

/-! ### Encoding -/

/-- 30_encoding.md R93: decoding a word into its field set and re-encoding the six fields gives the word, and the
immediate is `{rd, shamt, funct}`. -/
def Obligations.FieldsReencodeToWord : Prop :=
  ∀ w : Word, (decodeFields w).encode = w ∧
    (decodeFields w).imm = (decodeFields w).rd ++ (decodeFields w).shamt ++ (decodeFields w).funct

/-- Every well-formed instruction, with every operand at every value, decodes back from its encoding, from the word and
from its bytes in memory order with anything after them. -/
def Obligations.DecodeEncodeRoundTrip : Prop :=
  ∀ i : Instr, i.wellFormed = true → decode (encode i) = i ∧
    ∀ rest : List Byte, decodeBytes (encodeBytes i ++ rest) = .ok (i, rest)

/-- Every word decodes to a well-formed instruction that encodes to that word: each word has exactly one meaning. -/
def Obligations.EncodeDecodeRoundTrip : Prop :=
  ∀ w : Word, (decode w).wellFormed = true ∧ encode (decode w) = w

/-- 30_encoding.md R87, R88: the row of a word is the first of the table whose mask and match select it, and is the
one its opcode field, and under opcode 0 its funct field, select. -/
def Obligations.RowsSelectedByMatchAndMask : Prop :=
  ∀ w : Word, ((decode w).mnemonic =
    if w &&& 0xFC00003F = 0x00000020 then .ADD
    else if w &&& 0xFC00003F = 0x00000022 then .SUB
    else if w &&& 0xFC000000 = 0x20000000 then .ADDI
    else if w &&& 0xFC000000 = 0x10000000 then .BEQ
    else if w &&& 0xFC000000 = 0xAC000000 then .SW
    else if w &&& 0xFC000000 = 0x8C000000 then .LW
    else if w &&& 0xFC000000 = 0x00000000 then .UNRECOGNIZED_FUNCT
    else .UNRECOGNIZED_OPCODE) ∧
  ((decode w).mnemonic =
    if w.extractLsb' 26 6 = 0x00#6 then
      if w.extractLsb' 0 6 = 0x20#6 then .ADD else if w.extractLsb' 0 6 = 0x22#6 then .SUB else .UNRECOGNIZED_FUNCT
    else if w.extractLsb' 26 6 = 0x08#6 then .ADDI
    else if w.extractLsb' 26 6 = 0x04#6 then .BEQ
    else if w.extractLsb' 26 6 = 0x2B#6 then .SW
    else if w.extractLsb' 26 6 = 0x23#6 then .LW
    else .UNRECOGNIZED_OPCODE)

/-- Words of 95_test_vectors.md 2.1, one of each row, decode to the instruction the vector names. -/
def Obligations.SpecWordsDecode : Prop :=
  decode 0x01095820 = .add 11 8 9 0 ∧ decode 0x010958A0 = .add 11 8 9 2 ∧ decode 0x01095822 = .sub 11 8 9 0 ∧
  decode 0x2108FFFF = .addi 8 8 0xFFFF ∧ decode 0x1000FFFC = .beq 0 0 0xFFFC ∧ decode 0xAC090100 = .sw 9 0x0100 0 ∧
  decode 0x8C0DFFFC = .lw 13 0xFFFC 0 ∧ decode 0x00000021 = .unrecognizedFunct 0 0 0 0 0x21 ∧
  decode 0xFC000000 = .unrecognizedOpcode 0x3F 0 0 0 0 0

/-! ### The cycle -/

/-- 40_cycle.md R111: when a cycle starts and the bytes at pc decode to the instruction `i`, step runs `exec i` at
pc = P + 4 and then forces register 0, counts the cycle and emits the record; nothing else is added. The record's
content, its registers and its word at P read after the execute among it, is the spec's decision D8 (log 8); when a
cycle starts is D4 and P + 4 modulo 2^32 is D12 (log 6, log 11). -/
def Obligations.StepRunsDecodedInstruction : Prop :=
  ∀ (s : State) (b0 b1 b2 b3 : Byte) (i : Instr),
    s.running = true → s.cycle.toNat < s.params.maxCycles.toNat → s.pc.toNat + 3 < s.params.memSize →
    s.mem.read s.pc.toNat = b0 → s.mem.read (s.pc.toNat + 1) = b1 → s.mem.read (s.pc.toNat + 2) = b2 →
    s.mem.read (s.pc.toNat + 3) = b3 → decodeBytes [b0, b1, b2, b3] = .ok (i, []) →
    ∃ t r, exec i { s with pc := s.pc + 4 } = .next t ∧
      step s = .next { t with
        x := t.x.set 0 0, cycle := t.cycle + 1, event := .none, trace := r :: t.trace } ∧
      r.pcBefore = s.pc ∧ r.word = some (b0 ++ b1 ++ b2 ++ b3) ∧ r.mnemonic = some i.mnemonic ∧ r.operands = some i.operands ∧ r.event = t.event ∧
      r.regs = t.x.set 0 0 ∧ r.memWord = t.memRead s.pc.toNat

/-- 40_cycle.md R123: HALTED is "not running or the budget is reached", the block's output says so, and in HALTED no
number of steps and no clock edge without reset changes or emits anything; the reset edge leaves it, if the budget
admits a cycle at all. The test before every cycle and the reset input are the spec's decisions D4, D9 and D10 (log 6,
log 10). -/
def Obligations.HaltedIsLeftOnlyByReset : Prop :=
  ∀ s : State, (s.outputs.halted = true ↔ s.running = false ∨ s.params.maxCycles.toNat ≤ s.cycle.toNat) ∧
    (s.outputs.halted = true → (∀ k, Sys2Proof.core.run k s = .next s) ∧ ∀ image : List Word,
      clockEdge image false { core := s, loadPending := false } = .next { core := s, loadPending := false } ∧
      (0 < s.params.maxCycles.toNat → ∃ b, clockEdge image true { core := s, loadPending := false } = .next b ∧
        b.core.outputs.halted = false))

/-- 40_cycle.md R112, R113: a fetch out of bounds clears the running flag and changes no register, no byte and not pc
(pc is the spec's decision D6, log 5); the cycle is counted and recorded exactly if FETCH_HALT_COUNTS, whichever value
that has (D5, log 2). The bound without wrap is D7 (log 7), the record's content D8 (log 8, log 9). -/
def Obligations.FetchOutOfBoundsHalts : Prop :=
  ∀ s : State, s.fetchesOutside → ∃ t, step s = .next t ∧ t.running = false ∧ t.pc = s.pc ∧ sameRegs s t ∧
    sameMemory s t ∧ t.params = s.params ∧
    (Config.fetchHaltCounts = true → t.cycle = s.cycle + 1 ∧
      ∃ r, t.trace = r :: s.trace ∧ r.pcBefore = s.pc ∧ r.event = .fetchOutOfBounds ∧ r.word = none ∧
        r.memWord = none ∧ r.regs = t.x) ∧
    (Config.fetchHaltCounts = false → t.cycle = s.cycle ∧ t.trace = s.trace)

/-- Every state has a next state: no instruction, address or condition faults or is refused (30_encoding.md R92,
60_exceptions.md R180). That nothing faults and nothing is refused is the model's deduction from those rules (log 16). -/
def Obligations.StepAlwaysAnswersNext : Prop :=
  ∀ s : State, ∃ t, step s = .next t

/-- 40_cycle.md R118 and 10_state.md R23: after every cycle that reaches EXECUTE register 0 is zero, whatever it was and
whatever the word does; the record shows it so (derived in R23; the record's registers, read after the cycle, are the
spec's decision D8, log 8). -/
def Obligations.RegisterZeroForcedEveryCycle : Prop :=
  ∀ (s : State) (w : Word), s.fetches w → ∃ t r, step s = .next t ∧ t.reg 0 = 0 ∧ t.trace = r :: s.trace ∧
    r.regs = t.x

/-- 40_cycle.md R120: a cycle that fetched a word in bounds is counted once, whatever it decodes to; an out-of-bounds
fetch is counted only if FETCH_HALT_COUNTS; nothing else changes the counter. -/
def Obligations.CycleCountsCompletedCycles : Prop :=
  ∀ s t : State, step s = .next t →
    (∀ w, s.fetches w → t.cycle = s.cycle + 1) ∧
    (s.fetchesOutside → t.cycle = if Config.fetchHaltCounts then s.cycle + 1 else s.cycle) ∧
    (s.halted = true → t.cycle = s.cycle)

/-- 10_state.md R30: the running flag is true at reset; it is cleared exactly by a fetch out of bounds and by an
unrecognised opcode; nothing but reset sets it; reaching the budget does not clear it; and no instruction reads it:
EXECUTE of any instruction gives states that differ in nothing else. -/
def Obligations.RunningClearedExactlyByTwoHalts : Prop :=
  State.reset.running = true ∧
  (∀ s t : State, step s = .next t →
    (s.running = false → t.running = false) ∧
    (s.running = true → (t.running = false ↔ s.fetchesOutside ∨
      ∃ w, s.fetches w ∧ (decode w).mnemonic = .UNRECOGNIZED_OPCODE))) ∧
  (∀ (i : Instr) (s t : State) (b : Bool), exec i s = .next t → ∃ c, exec i { s with running := b } =
    .next { t with running := c })

/-- 60_exceptions.md R181, causes: the event a completed cycle records is that of its cause, and NONE without one. That
the record has an event is the spec's decision D8 (log 8), the unsigned bound without wrap of LW and SW is D7
(log 7). -/
def Obligations.RecordedEventTellsItsCause : Prop :=
  ∀ (s : State) (w : Word), s.fetches w → ∃ t r, step s = .next t ∧ t.trace = r :: s.trace ∧
    r.event = match decode w with
      | .unrecognizedFunct _ _ _ _ _ => .unrecognizedFunct
      | .unrecognizedOpcode _ _ _ _ _ _ => .unrecognizedOpcode
      | .lw _ imm rs => if s.params.memSize ≤ (s.reg rs + imm.signExtend 32).toNat + 3 then .loadOutOfBounds else .none
      | .sw _ imm rs => if s.params.memSize ≤ (s.reg rs + imm.signExtend 32).toNat + 3 then .storeOutOfBounds else .none
      | _ => .none

/-- 40_cycle.md R126, R127: the record of a completed cycle, every field; its event is the tag EXECUTE returned (R116).
The content and its sampling after the execute are the spec's decision D8 (log 8): `memWord` is the word at P in the
state after the cycle. The `obs` port with its strobe is D2 (10_state.md R38). -/
def Obligations.RecordHoldsTheCycle : Prop :=
  ∀ (s : State) (w : Word), s.fetches w → ∃ t r, step s = .next t ∧ obsPort s t = some r ∧ t.trace = r :: s.trace ∧
    r.pcBefore = s.pc ∧ r.word = some w ∧ r.mnemonic = some (decode w).mnemonic ∧ r.regs = t.x ∧
    r.memWord = t.memRead s.pc.toNat ∧ r.memWord.isSome = true ∧
    (∃ e, exec (decode w) { s with pc := s.pc + 4 } = .next e ∧ r.event = e.event) ∧
    r.operands = some (match decode w with
      | .add rd rs rt _ => .registers rd rs rt
      | .sub rd rs rt _ => .registers rd rs rt
      | .addi rt rs imm => .immediate rt rs (imm.signExtend 32)
      | .beq rs rt imm => .branch rs rt (imm.signExtend 32)
      | .lw rt imm rs => .memory rt (imm.signExtend 32) rs
      | .sw rt imm rs => .memory rt (imm.signExtend 32) rs
      | .unrecognizedFunct _ _ _ _ _ => .codes (w.extractLsb' 26 6) (w.extractLsb' 0 6)
      | .unrecognizedOpcode _ _ _ _ _ _ => .codes (w.extractLsb' 26 6) (w.extractLsb' 0 6))

/-! ### Arithmetic -/

/-- 41_arith.md R140. First clause: EXECUTE of ADD. Second: the whole cycle of any word that match and mask select, its
fields read off the word, register 0 as destination without lasting effect. -/
def Obligations.AddWritesSum : Prop :=
  (∀ (rd rs rt shamt : RegIdx) (s : State), ∃ t, exec (.add rd rs rt shamt) s = .next t ∧
    t.reg rd = s.reg rs + s.reg rt ∧ sameRegsBut rd s t ∧ sameMemory s t ∧ t.pc = s.pc ∧ t.running = s.running ∧
    sameLoop s t ∧ t.event = .none) ∧
  (∀ (s : State) (w : Word), s.fetches w → w &&& 0xFC00003F = 0x00000020 → ∃ t, step s = .next t ∧
    s.completes w .none t ∧ sameMemory s t ∧ t.pc = s.pc + 4 ∧ t.running = true ∧
    ∀ q, q ≠ 0 → t.reg q = if q = regField w 11 then s.reg (regField w 21) + s.reg (regField w 16) else s.reg q)

/-- 41_arith.md R141, as for ADD: the operand order is `rs - rt`. -/
def Obligations.SubWritesDifference : Prop :=
  (∀ (rd rs rt shamt : RegIdx) (s : State), ∃ t, exec (.sub rd rs rt shamt) s = .next t ∧
    t.reg rd = s.reg rs - s.reg rt ∧ sameRegsBut rd s t ∧ sameMemory s t ∧ t.pc = s.pc ∧ t.running = s.running ∧
    sameLoop s t ∧ t.event = .none) ∧
  (∀ (s : State) (w : Word), s.fetches w → w &&& 0xFC00003F = 0x00000022 → ∃ t, step s = .next t ∧
    s.completes w .none t ∧ sameMemory s t ∧ t.pc = s.pc + 4 ∧ t.running = true ∧
    ∀ q, q ≠ 0 → t.reg q = if q = regField w 11 then s.reg (regField w 21) - s.reg (regField w 16) else s.reg q)

/-- 41_arith.md R142, as for ADD: the immediate is the integer its 16 bits denote in two's complement. -/
def Obligations.AddiAddsSignedImmediate : Prop :=
  (∀ (rt rs : RegIdx) (imm : Imm) (s : State), ∃ t, exec (.addi rt rs imm) s = .next t ∧
    t.reg rt = s.reg rs + BitVec.ofInt 32 imm.toInt ∧ sameRegsBut rt s t ∧ sameMemory s t ∧ t.pc = s.pc ∧
    t.running = s.running ∧ sameLoop s t ∧ t.event = .none) ∧
  (∀ (s : State) (w : Word), s.fetches w → w &&& 0xFC000000 = 0x20000000 → ∃ t, step s = .next t ∧
    s.completes w .none t ∧ sameMemory s t ∧ t.pc = s.pc + 4 ∧ t.running = true ∧
    ∀ q, q ≠ 0 → t.reg q = if q = regField w 16
      then s.reg (regField w 21) + BitVec.ofInt 32 (w.extractLsb' 0 16).toInt else s.reg q)

/-- 41_arith.md R143: read unsigned the results are the sum and the difference modulo 2^32, read signed the exact ones
reduced into -2^31..2^31-1; no overflow sets a flag, halts or raises an event. -/
def Obligations.ArithmeticWrapsSilently : Prop :=
  ∀ (rd rs rt shamt : RegIdx) (imm : Imm) (s : State),
    (∃ t, exec (.add rd rs rt shamt) s = .next t ∧ t.running = s.running ∧ t.event = .none ∧
      (t.reg rd).toNat = ((s.reg rs).toNat + (s.reg rt).toNat) % 2 ^ 32 ∧
      (t.reg rd).toInt = ((s.reg rs).toInt + (s.reg rt).toInt).bmod (2 ^ 32)) ∧
    (∃ t, exec (.sub rd rs rt shamt) s = .next t ∧ t.running = s.running ∧ t.event = .none ∧
      (t.reg rd).toNat = ((s.reg rs).toNat + 2 ^ 32 - (s.reg rt).toNat) % 2 ^ 32 ∧
      (t.reg rd).toInt = ((s.reg rs).toInt - (s.reg rt).toInt).bmod (2 ^ 32)) ∧
    (∃ t, exec (.addi rt rs imm) s = .next t ∧ t.running = s.running ∧ t.event = .none ∧
      (t.reg rt).toInt = ((s.reg rs).toInt + imm.toInt).bmod (2 ^ 32))

/-! ### Branch -/

/-- 42_branch.md R150, R151. First clause: EXECUTE of BEQ, at pc = P + 4. Second: the whole cycle of any word that match
and mask select. The offset is four times the signed immediate, modulo 2^32 (the spec's decision D12, log 11). The
target is not checked: one outside memory halts the next cycle that starts. -/
def Obligations.BeqBranchesIfEqual : Prop :=
  (∀ (rs rt : RegIdx) (imm : Imm) (s : State), ∃ t, exec (.beq rs rt imm) s = .next t ∧
    t.pc = (if s.reg rs = s.reg rt then s.pc + BitVec.ofInt 32 (4 * imm.toInt) else s.pc) ∧ sameRegs s t ∧
    sameMemory s t ∧ t.running = s.running ∧ sameLoop s t ∧ t.event = .none) ∧
  (∀ (s : State) (w : Word), s.fetches w → w &&& 0xFC000000 = 0x10000000 → ∃ t, step s = .next t ∧
    s.completes w .none t ∧ sameMemory s t ∧ t.running = true ∧ (∀ q, q ≠ 0 → t.reg q = s.reg q) ∧
    (t.pc = if s.reg (regField w 21) = s.reg (regField w 16)
      then s.pc + 4 + BitVec.ofInt 32 (4 * (w.extractLsb' 0 16).toInt) else s.pc + 4) ∧
    (t.fetchesOutside → ∃ u, step t = .next u ∧ u.running = false))

/-- 42_branch.md R154: BEQ is the only control transfer. The cycle of any other word, unrecognised ones included, leaves
pc at P + 4 and the machine running, but for an unrecognised opcode, which halts it there: that final pc is the spec's
decision D6 (log 5). P + 4 modulo 2^32 is D12 (log 11). -/
def Obligations.OnlyBeqTransfersControl : Prop :=
  ∀ (s : State) (w : Word), s.fetches w → (decode w).mnemonic ≠ .BEQ → ∃ t, step s = .next t ∧ t.pc = s.pc + 4 ∧
    (t.running = true ↔ (decode w).mnemonic ≠ .UNRECOGNIZED_OPCODE)

/-- 42_branch.md R152, R151: no delay slot. The cycle after a BEQ records the word at the target if the branch was taken,
at P + 4 if not, and that address as its pc. The target modulo 2^32 is the spec's decision D12 (log 11). -/
def Obligations.BranchHasNoDelaySlot : Prop :=
  ∀ (s t : State) (w v : Word) (rs rt : RegIdx) (imm : Imm), s.fetches w → decode w = .beq rs rt imm →
    step s = .next t → t.fetches v →
    ∃ u r, step t = .next u ∧ u.trace = r :: t.trace ∧ r.word = some v ∧
      r.pcBefore = if s.reg rs = s.reg rt then s.pc + 4 + BitVec.ofInt 32 (4 * imm.toInt) else s.pc + 4

/-! ### Load and store -/

/-- 43_loadstore.md R161. First clause: EXECUTE of SW in bounds stores the four bytes of x[rt], big-endian, at the
effective address, whatever its alignment, and nothing else. Second: out of bounds it stores nothing and says so, and
the machine runs on. Third: the whole cycle of any word that match and mask select, in bounds and out. Premise: memory
is canonical, an invariant of every step. That an address is read unsigned and a + 3 does not wrap is the spec's
decision D7 (log 7). -/
def Obligations.SwStoresWord : Prop :=
  (∀ (rt : RegIdx) (imm : Imm) (rs : RegIdx) (s : State), s.mem.wf →
    s.effectiveAddress rs imm + 3 < s.params.memSize → ∃ t, exec (.sw rt imm rs) s = .next t ∧
      (∀ a, a = s.effectiveAddress rs imm →
        t.mem.read a = (s.reg rt).extractLsb' 24 8 ∧ t.mem.read (a + 1) = (s.reg rt).extractLsb' 16 8 ∧
        t.mem.read (a + 2) = (s.reg rt).extractLsb' 8 8 ∧ t.mem.read (a + 3) = (s.reg rt).extractLsb' 0 8 ∧
        sameMemoryOutside a s t) ∧
      sameRegs s t ∧ t.pc = s.pc ∧ t.running = s.running ∧ sameLoop s t ∧ t.event = .none) ∧
  (∀ (rt : RegIdx) (imm : Imm) (rs : RegIdx) (s : State),
    s.params.memSize ≤ s.effectiveAddress rs imm + 3 → ∃ t, exec (.sw rt imm rs) s = .next t ∧
      sameMemory s t ∧ sameRegs s t ∧ t.pc = s.pc ∧ t.running = s.running ∧ sameLoop s t ∧
      t.event = .storeOutOfBounds) ∧
  (∀ (s : State) (w : Word), s.mem.wf → s.fetches w → w &&& 0xFC000000 = 0xAC000000 →
    ∃ t e a, step s = .next t ∧ s.completes w e t ∧ (∀ q, q ≠ 0 → t.reg q = s.reg q) ∧ t.pc = s.pc + 4 ∧
      t.running = true ∧ a = (s.reg (regField w 21) + BitVec.ofInt 32 (w.extractLsb' 0 16).toInt).toNat ∧
      if a + 3 < s.params.memSize then e = .none ∧ t.memRead a = some (s.reg (regField w 16)) ∧ sameMemoryOutside a s t
      else e = .storeOutOfBounds ∧ sameMemory s t)

/-- 43_loadstore.md R162. First clause: EXECUTE of LW in bounds writes the four bytes at the effective address,
big-endian, whatever its alignment. Second: out of bounds the destination keeps its value and the machine runs on.
Third: the whole cycle of any word that match and mask select, in bounds and out. That an address is read unsigned and
a + 3 does not wrap is the spec's decision D7 (log 7). -/
def Obligations.LwLoadsWord : Prop :=
  (∀ (rt : RegIdx) (imm : Imm) (rs : RegIdx) (s : State),
    s.effectiveAddress rs imm + 3 < s.params.memSize → ∃ t, exec (.lw rt imm rs) s = .next t ∧
      (∀ a, a = s.effectiveAddress rs imm → t.reg rt =
        s.mem.read a ++ s.mem.read (a + 1) ++ s.mem.read (a + 2) ++ s.mem.read (a + 3)) ∧
      sameRegsBut rt s t ∧ sameMemory s t ∧ t.pc = s.pc ∧ t.running = s.running ∧ sameLoop s t ∧ t.event = .none) ∧
  (∀ (rt : RegIdx) (imm : Imm) (rs : RegIdx) (s : State),
    s.params.memSize ≤ s.effectiveAddress rs imm + 3 → ∃ t, exec (.lw rt imm rs) s = .next t ∧
      sameRegs s t ∧ sameMemory s t ∧ t.pc = s.pc ∧ t.running = s.running ∧ sameLoop s t ∧
      t.event = .loadOutOfBounds) ∧
  (∀ (s : State) (w : Word), s.fetches w → w &&& 0xFC000000 = 0x8C000000 →
    ∃ t e a, step s = .next t ∧ s.completes w e t ∧ sameMemory s t ∧ t.pc = s.pc + 4 ∧ t.running = true ∧
      a = (s.reg (regField w 21) + BitVec.ofInt 32 (w.extractLsb' 0 16).toInt).toNat ∧
      (∀ q, q ≠ 0 → q ≠ regField w 16 → t.reg q = s.reg q) ∧
      if a + 3 < s.params.memSize then e = .none ∧ (regField w 16 ≠ 0 → s.memRead a = some (t.reg (regField w 16)))
      else e = .loadOutOfBounds ∧ (regField w 16 ≠ 0 → t.reg (regField w 16) = s.reg (regField w 16)))

/-- 95_test_vectors.md V5: a word stored with SW at an in-bounds address is what LW from the same base and displacement
loads next, whatever registers hold them. -/
def Obligations.LoadAfterStoreYieldsStoredWord : Prop :=
  ∀ (r q rs : RegIdx) (imm : Imm) (s : State), s.mem.wf → s.effectiveAddress rs imm + 3 < s.params.memSize →
    ∃ t u, exec (.sw r imm rs) s = .next t ∧ exec (.lw q imm rs) t = .next u ∧ u.reg q = s.reg r

/-- 20_memory.md R51, R53, R54 and R55, of the primitives: MemRead is in bounds iff the integer a + 3 is below
MEM_SIZE and then gives the four bytes, the lowest address most significant; MemWrite is in bounds alike and writes
those four bytes and no other; out of bounds neither has an effect. That a + 3 does not wrap is the spec's decision D7
(log 7). -/
def Obligations.WordAccessIsBigEndian : Prop :=
  ∀ (s : State) (a : Nat) (v : Word), s.mem.wf →
    (a + 3 < s.params.memSize →
      s.memRead a = some (s.mem.read a ++ s.mem.read (a + 1) ++ s.mem.read (a + 2) ++ s.mem.read (a + 3)) ∧
      ∃ t, s.memWrite a v = some t ∧ t = { s with mem := t.mem } ∧
        t.mem.read a ++ t.mem.read (a + 1) ++ t.mem.read (a + 2) ++ t.mem.read (a + 3) = v ∧
        sameMemoryOutside a s t) ∧
    (s.params.memSize ≤ a + 3 → s.memRead a = none ∧ s.memWrite a v = none)

/-- 20_memory.md R56 (derived there): with a legal MEM_SIZE the unsigned address modulo 2^32 is in bounds exactly if the
signed integer sum lies in 0..MEM_SIZE-4, and then it is that sum. -/
def Obligations.SignedAndUnsignedAddressesAgree : Prop :=
  ∀ (s : State) (rs : RegIdx) (imm : Imm), s.params.valid →
    (s.effectiveAddress rs imm + 3 < s.params.memSize ↔
      0 ≤ (s.reg rs).toInt + imm.toInt ∧ (s.reg rs).toInt + imm.toInt ≤ (s.params.memSize : Int) - 4) ∧
    (s.effectiveAddress rs imm + 3 < s.params.memSize →
      (s.effectiveAddress rs imm : Int) = (s.reg rs).toInt + imm.toInt)

/-- 20_memory.md R66 (derived there): a word SW stores in one cycle is the word any later fetch of that address reads,
the very next cycle's included (k = 0), as long as no SW in between stores to one of its four bytes; and it stands in
memory until then. The storing cycle itself records the word it fetched, not the one it stored. The bound without wrap
is the spec's decision D7 (log 7). -/
def Obligations.StoreIsSeenByNextFetch : Prop :=
  ∀ (s t : State) (w : Word) (rt : RegIdx) (imm : Imm) (rs : RegIdx), s.mem.wf → s.fetches w →
    decode w = .sw rt imm rs → s.effectiveAddress rs imm + 3 < s.params.memSize → step s = .next t →
    (∃ r, t.trace = r :: s.trace ∧ r.word = some w) ∧
    ∀ (k : Nat) (u : State), Sys2Proof.core.run k t = .next u →
      (∀ (j : Nat) (v : State), j < k → Sys2Proof.core.run j t = .next v →
        ¬ v.storesInto (s.effectiveAddress rs imm)) →
      u.memRead (s.effectiveAddress rs imm) = some (s.reg rt) ∧
      (u.halted = false → u.pc.toNat = s.effectiveAddress rs imm →
        ∃ x r, step u = .next x ∧ x.trace = r :: u.trace ∧ r.word = some (s.reg rt) ∧ r.pcBefore = u.pc)

/-- 20_memory.md R68 (derived there): overlapping accesses of different alignment see bytes. After the words `v` at `a`
and `u` at `a + 4`, the word at `a + 2` is the low half of `v` over the high half of `u`. -/
def Obligations.OverlappingAccessesSeeBytes : Prop :=
  ∀ (s : State) (a : Nat) (v u : Word), s.mem.wf → a + 7 < s.params.memSize →
    ∃ t t', s.memWrite a v = some t ∧ t.memWrite (a + 4) u = some t' ∧
      t'.memRead (a + 2) = some (v.extractLsb' 0 16 ++ u.extractLsb' 16 16)

/-! ### Unrecognised words -/

/-- 44_unrecognized.md R170. First clause: EXECUTE changes nothing. Second: the cycle of any such word moves pc, counts,
and reports; the machine runs on. -/
def Obligations.UnrecognizedFunctChangesNothing : Prop :=
  (∀ (rs rt rd shamt : RegIdx) (funct : Code) (s : State), ∃ t,
    exec (.unrecognizedFunct rs rt rd shamt funct) s = .next t ∧ sameRegs s t ∧ sameMemory s t ∧ t.pc = s.pc ∧
    t.running = s.running ∧ sameLoop s t ∧ t.event = .unrecognizedFunct) ∧
  (∀ (s : State) (w : Word), s.fetches w → w.extractLsb' 26 6 = 0x00#6 → w.extractLsb' 0 6 ≠ 0x20#6 →
    w.extractLsb' 0 6 ≠ 0x22#6 → ∃ t, step s = .next t ∧ s.completes w .unrecognizedFunct t ∧ sameMemory s t ∧
    t.pc = s.pc + 4 ∧ t.running = true ∧ ∀ q, q ≠ 0 → t.reg q = s.reg q)

/-- 44_unrecognized.md R171. First clause: EXECUTE clears the running flag and changes nothing else. Second: the cycle
of any such word. That pc keeps the fetch advance is the spec's decision D6 (log 5). -/
def Obligations.UnrecognizedOpcodeHalts : Prop :=
  (∀ (opcode : Code) (rs rt rd shamt : RegIdx) (funct : Code) (s : State), ∃ t,
    exec (.unrecognizedOpcode opcode rs rt rd shamt funct) s = .next t ∧ t.running = false ∧ sameRegs s t ∧
    sameMemory s t ∧ t.pc = s.pc ∧ sameLoop s t ∧ t.event = .unrecognizedOpcode) ∧
  (∀ (s : State) (w : Word), s.fetches w →
    w.extractLsb' 26 6 ∉ [0x00#6, 0x04#6, 0x08#6, 0x23#6, 0x2B#6] → ∃ t, step s = .next t ∧
    s.completes w .unrecognizedOpcode t ∧ sameMemory s t ∧ t.pc = s.pc + 4 ∧ t.running = false ∧
    ∀ q, q ≠ 0 → t.reg q = s.reg q)

/-! ### Whole-machine rules -/

/-- 20_memory.md R50 and R54, 43_loadstore.md R161 and R162: a step changes a byte of memory only if it fetched an SW in
bounds, and then only one of the four bytes at its effective address. The bound without wrap is the spec's decision D7
(log 7). -/
def Obligations.OnlySwChangesMemory : Prop :=
  ∀ (s t : State) (b : Nat), s.mem.wf → step s = .next t → t.mem.read b ≠ s.mem.read b →
    ∃ w rt imm rs, s.fetches w ∧ decode w = .sw rt imm rs ∧
      s.effectiveAddress rs imm + 3 < s.params.memSize ∧
      s.effectiveAddress rs imm ≤ b ∧ b < s.effectiveAddress rs imm + 4

/-- 10_state.md R24, writers: a step changes a register other than 0 only if it fetched an ADD or SUB whose rd it is, an
ADDI whose rt it is, or an LW in bounds whose rt it is. The bound without wrap is the spec's decision D7 (log 7). -/
def Obligations.OnlyDestinationRegisterChanges : Prop :=
  ∀ (s t : State) (q : RegIdx), step s = .next t → q ≠ 0 → t.reg q ≠ s.reg q →
    ∃ w, s.fetches w ∧ ((∃ rs rt shamt, decode w = .add q rs rt shamt) ∨ (∃ rs rt shamt, decode w = .sub q rs rt shamt) ∨
      (∃ rs imm, decode w = .addi q rs imm) ∨
      (∃ imm rs, decode w = .lw q imm rs ∧ s.effectiveAddress rs imm + 3 < s.params.memSize))

/-- 10_state.md R36 and R31: the cycle counter, the budget and the records are invisible to instructions. Two states
that agree on memory, registers, pc, running flag and memory size, and both start a cycle, agree on them after it. -/
def Obligations.CounterInvisibleToInstructions : Prop :=
  ∀ s s' t t' : State, sameMachine s s' → s'.params.memSize = s.params.memSize → s.halted = false →
    s'.halted = false → step s = .next t → step s' = .next t' → sameMachine t t'

/-- 10_state.md R29 and 42_branch.md R153 (derived there): a step keeps pc a multiple of 4. -/
def Obligations.PcStaysWordAligned : Prop :=
  ∀ s t : State, s.pc.toNat % 4 = 0 → step s = .next t → t.pc.toNat % 4 = 0

/-- The model's own fields: a step keeps the parameters of the run and never removes or changes a record. -/
def Obligations.ParametersAndRecordsPersist : Prop :=
  ∀ s t : State, step s = .next t → t.params = s.params ∧ (t.trace = s.trace ∨ ∃ r, t.trace = r :: s.trace)

/-- Two canonical memories that read alike at every address are the same data (20_memory.md R50: memory is the array of
its bytes). -/
def Obligations.EqualReadsMeanEqualMemory : Prop :=
  ∀ m m' : Memory, m.wf → m'.wf → (∀ a, m.read a = m'.read a) → m = m'

/-- Every step keeps the invariant. -/
def Obligations.StepKeepsInvariant : Prop :=
  ∀ s t : State, s.Inv → step s = .next t → t.Inv

/-- 10_state.md R37: reset leaves every byte, every register, pc and cycle zero and running true (cycle is the spec's
decision D9, log 10), and that state satisfies the invariant. -/
def Obligations.ResetValues : Prop :=
  (∀ a, State.reset.mem.read a = 0) ∧ (∀ r, State.reset.reg r = 0) ∧ State.reset.pc = 0 ∧ State.reset.cycle = 0 ∧
    State.reset.running = true ∧ State.reset.Inv

/-- 70_reset_and_hazards.md R214: the loader stores the words of the image from address 0 on, every one that fits, and
every other byte stays 0; the state the first cycle starts from has the reset values otherwise and satisfies the
invariant. -/
def Obligations.LoaderPlacesImage : Prop :=
  ∀ (p : Params) (image : List Word), p.valid →
    (∀ (i : Nat) (w : Word), image[i]? = some w → 4 * i + 3 < p.memSize →
      (State.launch p image).memRead (4 * i) = some w) ∧
    (∀ a, (∀ i, i < image.length → 4 * i + 3 < p.memSize → a < 4 * i ∨ 4 * i + 4 ≤ a) →
      (State.launch p image).mem.read a = 0) ∧
    State.launch p image = { State.resetWith p with mem := (State.launch p image).mem } ∧
    (State.launch p image).Inv

/-- 70_reset_and_hazards.md R211 (the spec's decision D9, log 10): a clock edge with rst leaves, from any state, HALTED
included, the reset values under the same parameters, stores of the earlier run discarded, and runs no cycle; held, it
leaves them. At the first edge after rst has fallen the launch image is applied and then the first cycle runs (that the
load takes no edge of its own is the model's choice, log 19). Every later edge without rst is a step. -/
def Obligations.ResetEdgeDiscardsEverything : Prop :=
  ∀ (b : Block) (image : List Word),
    (∃ c, clockEdge image true b = .next c ∧ (∀ a, c.core.mem.read a = 0) ∧ (∀ r, c.core.reg r = 0) ∧
      c.core.pc = 0 ∧ c.core.cycle = 0 ∧ c.core.running = true ∧ c.core.trace = [] ∧ c.core.params = b.core.params ∧
      clockEdge image true c = .next c ∧
      ∃ t, step (State.launch b.core.params image) = .next t ∧
        clockEdge image false c = .next { core := t, loadPending := false }) ∧
    (b.loadPending = false → ∃ t, step b.core = .next t ∧
      clockEdge image false b = .next { core := t, loadPending := false })

/-- 40_cycle.md R122 (derived there): every run ends. From any state, as many steps as the budget has cycles left reach
HALTED, and no further step leaves it; the counter has not passed the budget. When the budget is tested is the spec's
decision D4 (log 6). -/
def Obligations.EveryRunEnds : Prop :=
  ∀ (s : State) (k : Nat), s.cycle.toNat ≤ s.params.maxCycles.toNat → s.params.maxCycles.toNat - s.cycle.toNat ≤ k →
    ∃ t, Sys2Proof.core.run k s = .next t ∧ t.halted = true ∧ t.params = s.params ∧
      s.cycle.toNat ≤ t.cycle.toNat ∧ t.cycle.toNat ≤ s.params.maxCycles.toNat

/-- 40_cycle.md R124 (derived there): when a step ends a run, the stop reason read off the final state and its last
record is the true one: an unrecognised opcode, an out-of-bounds fetch, or the budget, with the running flag still
set. -/
def Obligations.StopReasonIsTheCause : Prop :=
  ∀ s t : State, s.Inv → s.halted = false → step s = .next t → t.halted = true →
    (t.stopReason = some .unrecognizedOpcode ↔ ∃ w, s.fetches w ∧ (decode w).mnemonic = .UNRECOGNIZED_OPCODE) ∧
    (t.stopReason = some .fetchOutOfBounds ↔ s.fetchesOutside) ∧
    (t.stopReason = some .budgetExhausted ↔ t.running = true ∧ t.cycle = t.params.maxCycles)

/-- The model is the step of 40_cycle.md R111 over a flat array: a second transcription of the rules, over natural
numbers, with signed integer data addresses (20_memory.md R56) and its own field extraction, agrees on every state
that satisfies the invariant, for either value of FETCH_HALT_COUNTS. Both follow the spec's decisions D4, D6, D7 and
D12 (log 5, log 6, log 7, log 11). -/
def Obligations.StepRefinesFlatMachine : Prop :=
  ∀ s : State, s.Inv → ∃ t, step s = .next t ∧ Flat.view t =
    Flat.step s.params.memSize s.params.maxCycles.toNat Config.fetchHaltCounts (Flat.view s)

/-- 70_reset_and_hazards.md R212: start-up is reset, then the load phase, once, then the cycles. From any block, rst
high for one or more edges and then low for k + 1 edges gives what k + 1 steps give from the launch state: the image is
loaded once, before the first cycle, no cycle runs before it, and the load phase does not run again. The reset input is
the spec's decision D9 (log 10), that the load takes no edge of its own the model's choice (log 19). -/
def Obligations.RunAfterResetIsRunOfLaunch : Prop :=
  ∀ (b : Block) (image : List Word) (n k : Nat), ∃ t,
    Sys2Proof.core.run (k + 1) (State.launch b.core.params image) = .next t ∧
    clockEdges image (List.replicate (n + 1) true ++ List.replicate (k + 1) false) b =
      .next { core := t, loadPending := false }
end

