-- ==== Sys2Proof/Laws/Bits.lean ====
section
/-! SUPPORT. Bits and bytes of words: byte order back and forth, the fields of an encoded field set, and the integer a
sign-extended immediate denotes. -/

namespace Sys2Proof

/-- The four bytes of a word, put together again. -/
@[simp] theorem wordOfBytes_byteOfWord (w : Word) :
    wordOfBytes (byteOfWord w 0) (byteOfWord w 1) (byteOfWord w 2) (byteOfWord w 3) = w := by
  apply BitVec.eq_of_getLsbD_eq
  intro i hi
  simp only [wordOfBytes, byteOfWord, BitVec.getLsbD_append, BitVec.getLsbD_extractLsb']
  split <;> rename_i h0
  · simp [h0]
  · split <;> rename_i h1
    · have : i - 8 < 8 := by omega
      simp [this]; congr 1; omega
    · split <;> rename_i h2
      · have : i - 8 - 8 < 8 := by omega
        simp [this]; congr 1; omega
      · have : i - 8 - 8 - 8 < 8 := by omega
        simp [this]; congr 1; omega

/-- Bit `i` of byte `k` in memory order is bit `24 - 8k + i` of the word. -/
theorem getLsbD_byteOfWord (w : Word) (k i : Nat) :
    (byteOfWord w k).getLsbD i = (decide (i < 8) && w.getLsbD (24 - 8 * k + i)) := by
  simp only [byteOfWord, BitVec.getLsbD_extractLsb']

@[simp] theorem byteOfWord_wordOfBytes_zero (b0 b1 b2 b3 : Byte) : byteOfWord (wordOfBytes b0 b1 b2 b3) 0 = b0 := by
  apply BitVec.eq_of_getLsbD_eq
  intro i hi
  have h0 : ¬ 24 - 8 * 0 + i < 8 := by omega
  have h1 : ¬ 24 - 8 * 0 + i - 8 < 8 := by omega
  have h2 : ¬ 24 - 8 * 0 + i - 8 - 8 < 8 := by omega
  have hi' : 24 - 8 * 0 + i - 8 - 8 - 8 = i := by omega
  simp only [getLsbD_byteOfWord, wordOfBytes, BitVec.getLsbD_append, h0, h1, h2, if_false, hi', hi, decide_true, Bool.true_and]

@[simp] theorem byteOfWord_wordOfBytes_one (b0 b1 b2 b3 : Byte) : byteOfWord (wordOfBytes b0 b1 b2 b3) 1 = b1 := by
  apply BitVec.eq_of_getLsbD_eq
  intro i hi
  have h0 : ¬ 24 - 8 * 1 + i < 8 := by omega
  have h1 : ¬ 24 - 8 * 1 + i - 8 < 8 := by omega
  have hi' : 24 - 8 * 1 + i - 8 - 8 = i := by omega
  simp only [getLsbD_byteOfWord, wordOfBytes, BitVec.getLsbD_append, h0, h1, if_true, if_false, hi', hi, decide_true, Bool.true_and]

@[simp] theorem byteOfWord_wordOfBytes_two (b0 b1 b2 b3 : Byte) : byteOfWord (wordOfBytes b0 b1 b2 b3) 2 = b2 := by
  apply BitVec.eq_of_getLsbD_eq
  intro i hi
  have h0 : ¬ 24 - 8 * 2 + i < 8 := by omega
  have hi' : 24 - 8 * 2 + i - 8 = i := by omega
  simp only [getLsbD_byteOfWord, wordOfBytes, BitVec.getLsbD_append, h0, if_true, if_false, hi', hi, decide_true, Bool.true_and]

@[simp] theorem byteOfWord_wordOfBytes_three (b0 b1 b2 b3 : Byte) : byteOfWord (wordOfBytes b0 b1 b2 b3) 3 = b3 := by
  apply BitVec.eq_of_getLsbD_eq
  intro i hi
  have hi' : 24 - 8 * 3 + i = i := by omega
  simp only [getLsbD_byteOfWord, wordOfBytes, BitVec.getLsbD_append, if_true, hi', hi, decide_true, Bool.true_and]

/-- `sext_32(imm)` is the integer the immediate denotes, modulo 2^32. -/
theorem Machine.sext32_eq_ofInt (imm : Imm) : Machine.sext32 imm = BitVec.ofInt 32 imm.toInt := by
  simp [Machine.sext32, BitVec.signExtend]

/-- `sext_32(imm) << 2` is four times that integer, modulo 2^32. -/
theorem Machine.branchOffset_eq_ofInt (imm : Imm) : Machine.branchOffset imm = BitVec.ofInt 32 (4 * imm.toInt) := by
  rw [Machine.branchOffset, Machine.sext32_eq_ofInt, BitVec.shiftLeft_eq_mul_twoPow, BitVec.mul_comm]
  rw [BitVec.ofInt_mul]
  rfl

end Sys2Proof
end

