-- ==== Sys2Proof/Laws/Block.lean ====
section
/-! SUPPORT. What a clock edge does (70_reset_and_hazards.md R211, R212): reset, load and first cycle, or a cycle. -/

namespace Sys2Proof.Machine

@[simp] theorem Block.cycleStart_pending (image : List Word) (s : State) :
    Block.cycleStart image { core := s, loadPending := true } = s.loadImage image := rfl

@[simp] theorem Block.cycleStart_loaded (image : List Word) (s : State) :
    Block.cycleStart image { core := s, loadPending := false } = s := rfl

@[simp] theorem clockEdge_reset (image : List Word) (b : Block) : clockEdge image true b =
    .next { core := State.resetWith b.core.params, loadPending := true } := rfl

/-- Everything an edge without reset does: the cycle that starts from `cycleStart`. -/
theorem clockEdge_cycle {image : List Word} {b : Block} {t : State} (h : step (b.cycleStart image) = .next t) :
    clockEdge image false b = .next { core := t, loadPending := false } := by
  simp [clockEdge, h]

@[simp] theorem clockEdges_nil (image : List Word) (b : Block) : clockEdges image [] b = .next b := rfl

theorem clockEdges_cons {image : List Word} {rst : Bool} {b c : Block} (h : clockEdge image rst b = .next c)
    (rsts : List Bool) : clockEdges image (rst :: rsts) b = clockEdges image rsts c := by
  simp only [clockEdges, h]

end Sys2Proof.Machine
end

