-- ==== Sys2Proof/Laws/Encoding.lean ====
section
/-! SUPPORT. The fields of an encoded field set (30_encoding.md R93), one lemma a field. -/

namespace Sys2Proof

section
variable (f : Fields)

theorem opcode_encode : f.encode.extractLsb' 26 6 = f.opcode := by
  apply BitVec.eq_of_getLsbD_eq
  intro i hi
  simp only [Fields.encode, BitVec.getLsbD_extractLsb', BitVec.getLsbD_append, hi, decide_true, Bool.true_and]
  split_ifs <;> first | omega | (congr 1; omega)

theorem rs_encode : f.encode.extractLsb' 21 5 = f.rs := by
  apply BitVec.eq_of_getLsbD_eq
  intro i hi
  simp only [Fields.encode, BitVec.getLsbD_extractLsb', BitVec.getLsbD_append, hi, decide_true, Bool.true_and]
  split_ifs <;> first | omega | (congr 1; omega)

theorem rt_encode : f.encode.extractLsb' 16 5 = f.rt := by
  apply BitVec.eq_of_getLsbD_eq
  intro i hi
  simp only [Fields.encode, BitVec.getLsbD_extractLsb', BitVec.getLsbD_append, hi, decide_true, Bool.true_and]
  split_ifs <;> first | omega | (congr 1; omega)

theorem rd_encode : f.encode.extractLsb' 11 5 = f.rd := by
  apply BitVec.eq_of_getLsbD_eq
  intro i hi
  simp only [Fields.encode, BitVec.getLsbD_extractLsb', BitVec.getLsbD_append, hi, decide_true, Bool.true_and]
  split_ifs <;> first | omega | (congr 1; omega)

theorem shamt_encode : f.encode.extractLsb' 6 5 = f.shamt := by
  apply BitVec.eq_of_getLsbD_eq
  intro i hi
  simp only [Fields.encode, BitVec.getLsbD_extractLsb', BitVec.getLsbD_append, hi, decide_true, Bool.true_and]
  split_ifs <;> first | omega | (congr 1; omega)

theorem funct_encode : f.encode.extractLsb' 0 6 = f.funct := by
  apply BitVec.eq_of_getLsbD_eq
  intro i hi
  simp only [Fields.encode, BitVec.getLsbD_extractLsb', BitVec.getLsbD_append, hi, decide_true, Bool.true_and]
  split_ifs <;> first | omega | (congr 1; omega)

theorem imm_encode : f.encode.extractLsb' 0 16 = f.rd ++ f.shamt ++ f.funct := by
  apply BitVec.eq_of_getLsbD_eq
  intro i hi
  have hi' : i < 16 := hi
  simp only [Fields.encode, BitVec.getLsbD_extractLsb', BitVec.getLsbD_append, hi', decide_true, Bool.true_and]
  split_ifs <;> first | omega | (congr 1; omega)

end

/-- The three parts of an immediate, put together again. -/
theorem imm_parts (v : Imm) : v.extractLsb' 11 5 ++ v.extractLsb' 6 5 ++ v.extractLsb' 0 6 = v := by
  apply BitVec.eq_of_getLsbD_eq
  intro i hi
  have hi' : i < 16 := hi
  simp only [BitVec.getLsbD_extractLsb', BitVec.getLsbD_append]
  split_ifs <;> rw [decide_eq_true (by omega), Bool.true_and] <;> congr 1 <;> omega

/-- An R-type field set comes back from its word. -/
theorem decodeFields_ofSix (opcode : Code) (rs rt rd shamt : RegIdx) (funct : Code) :
    decodeFields (Fields.ofSix opcode rs rt rd shamt funct).encode = Fields.ofSix opcode rs rt rd shamt funct := by
  simp only [decodeFields, opcode_encode, rs_encode, rt_encode, rd_encode, shamt_encode, funct_encode, imm_encode]
  rfl

/-- An I-type field set comes back from its word. -/
theorem decodeFields_ofImm (opcode : Code) (rs rt : RegIdx) (imm : Imm) :
    decodeFields (Fields.ofImm opcode rs rt imm).encode = Fields.ofImm opcode rs rt imm := by
  simp only [decodeFields, opcode_encode, rs_encode, rt_encode, rd_encode, shamt_encode, funct_encode, imm_encode]
  simp only [Fields.ofImm, imm_parts]

/-! ### Match and mask (30_encoding.md R88) -/

/-- Mask 0xFC000000 selects by the opcode field alone. -/
theorem mask_opcode (w : Word) (c : Code) :
    w &&& 0xFC000000 = c ++ (0 : BitVec 26) ↔ w.extractLsb' 26 6 = c := by
  constructor
  · intro h
    apply BitVec.eq_of_getLsbD_eq
    intro i hi
    have h' := congrArg (fun v : Word => v.getLsbD (26 + i)) h
    have m : (0xFC000000 : Word).getLsbD (26 + i) = true := by clear * - hi; revert i; decide
    simp only [BitVec.getLsbD_and, BitVec.getLsbD_append, m, Bool.and_true] at h'
    rw [if_neg (by omega), show 26 + i - 26 = i by omega] at h'
    simpa only [BitVec.getLsbD_extractLsb', hi, decide_true, Bool.true_and] using h'
  · intro h
    apply BitVec.eq_of_getLsbD_eq
    intro i hi
    have m : (0xFC000000 : Word).getLsbD i = decide (26 ≤ i) := by clear * - hi; revert i; decide
    have h' := congrArg (fun v : Code => v.getLsbD (i - 26)) h
    simp only [BitVec.getLsbD_extractLsb'] at h'
    rw [BitVec.getLsbD_and, BitVec.getLsbD_append, m]
    split
    · have : ¬ 26 ≤ i := by omega
      simp [this]
    · rw [decide_eq_true (by omega), Bool.true_and, show 26 + (i - 26) = i by omega] at h'
      rw [h', decide_eq_true (by omega), Bool.and_true]

/-- Mask 0xFC00003F with opcode 0 selects by opcode and funct. -/
theorem mask_funct (w : Word) (c : Code) :
    w &&& 0xFC00003F = (0 : BitVec 26) ++ c ↔ w.extractLsb' 26 6 = 0 ∧ w.extractLsb' 0 6 = c := by
  constructor
  · intro h
    refine ⟨?_, ?_⟩ <;> (apply BitVec.eq_of_getLsbD_eq; intro i hi)
    · have h' := congrArg (fun v : Word => v.getLsbD (26 + i)) h
      have m : (0xFC00003F : Word).getLsbD (26 + i) = true := by clear * - hi; revert i; decide
      simp only [BitVec.getLsbD_and, BitVec.getLsbD_append, m, Bool.and_true] at h'
      rw [if_neg (by omega)] at h'
      simpa only [BitVec.getLsbD_extractLsb', hi, decide_true, Bool.true_and, BitVec.ofNat_eq_ofNat,
        BitVec.getLsbD_zero] using h'
    · have h' := congrArg (fun v : Word => v.getLsbD (0 + i)) h
      have m : (0xFC00003F : Word).getLsbD (0 + i) = true := by clear * - hi; revert i; decide
      simp only [BitVec.getLsbD_and, BitVec.getLsbD_append, m, Bool.and_true] at h'
      rw [if_pos (by omega), show 0 + i = i by omega] at h'
      simpa only [BitVec.getLsbD_extractLsb', hi, decide_true, Bool.true_and, Nat.zero_add] using h'
  · rintro ⟨h1, h2⟩
    apply BitVec.eq_of_getLsbD_eq
    intro i hi
    have m : (0xFC00003F : Word).getLsbD i = (decide (26 ≤ i) || decide (i < 6)) := by clear * - hi; revert i; decide
    have e1 := congrArg (fun v : Code => v.getLsbD (i - 26)) h1
    have e2 := congrArg (fun v : Code => v.getLsbD i) h2
    simp only [BitVec.getLsbD_extractLsb'] at e1 e2
    rw [BitVec.getLsbD_and, BitVec.getLsbD_append, m]
    split
    · simp_all
    · by_cases h' : 26 ≤ i
      · rw [decide_eq_true (by omega), Bool.true_and, show 26 + (i - 26) = i by omega] at e1
        simp [e1]
      · simp_all

/-! The seven rows with a match and mask. -/

theorem select_add (w : Word) :
    w &&& 0xFC00003F = 0x00000020 ↔ w.extractLsb' 26 6 = 0x00#6 ∧ w.extractLsb' 0 6 = 0x20#6 := mask_funct w 0x20
theorem select_sub (w : Word) :
    w &&& 0xFC00003F = 0x00000022 ↔ w.extractLsb' 26 6 = 0x00#6 ∧ w.extractLsb' 0 6 = 0x22#6 := mask_funct w 0x22
theorem select_addi (w : Word) : w &&& 0xFC000000 = 0x20000000 ↔ w.extractLsb' 26 6 = 0x08#6 := mask_opcode w 0x08
theorem select_beq (w : Word) : w &&& 0xFC000000 = 0x10000000 ↔ w.extractLsb' 26 6 = 0x04#6 := mask_opcode w 0x04
theorem select_sw (w : Word) : w &&& 0xFC000000 = 0xAC000000 ↔ w.extractLsb' 26 6 = 0x2B#6 := mask_opcode w 0x2B
theorem select_lw (w : Word) : w &&& 0xFC000000 = 0x8C000000 ↔ w.extractLsb' 26 6 = 0x23#6 := mask_opcode w 0x23
theorem select_zero (w : Word) : w &&& 0xFC000000 = 0x00000000 ↔ w.extractLsb' 26 6 = 0x00#6 := mask_opcode w 0x00

/-! ### The instruction of a word, by its fields (30_encoding.md R87) -/

section
variable {w : Word}

theorem decode_add (h : w.extractLsb' 26 6 = 0x00#6) (hf : w.extractLsb' 0 6 = 0x20#6) : decode w =
    .add (w.extractLsb' 11 5) (w.extractLsb' 21 5) (w.extractLsb' 16 5) (w.extractLsb' 6 5) := by
  simp [decode, dispatch, decodeFields, h, hf]

theorem decode_sub (h : w.extractLsb' 26 6 = 0x00#6) (hf : w.extractLsb' 0 6 = 0x22#6) : decode w =
    .sub (w.extractLsb' 11 5) (w.extractLsb' 21 5) (w.extractLsb' 16 5) (w.extractLsb' 6 5) := by
  simp [decode, dispatch, decodeFields, h, hf]

theorem decode_addi (h : w.extractLsb' 26 6 = 0x08#6) : decode w =
    .addi (w.extractLsb' 16 5) (w.extractLsb' 21 5) (w.extractLsb' 0 16) := by
  simp [decode, dispatch, decodeFields, h]

theorem decode_beq (h : w.extractLsb' 26 6 = 0x04#6) : decode w =
    .beq (w.extractLsb' 21 5) (w.extractLsb' 16 5) (w.extractLsb' 0 16) := by
  simp [decode, dispatch, decodeFields, h]

theorem decode_sw (h : w.extractLsb' 26 6 = 0x2B#6) : decode w =
    .sw (w.extractLsb' 16 5) (w.extractLsb' 0 16) (w.extractLsb' 21 5) := by
  simp [decode, dispatch, decodeFields, h]

theorem decode_lw (h : w.extractLsb' 26 6 = 0x23#6) : decode w =
    .lw (w.extractLsb' 16 5) (w.extractLsb' 0 16) (w.extractLsb' 21 5) := by
  simp [decode, dispatch, decodeFields, h]

theorem decode_unrecognizedFunct (h : w.extractLsb' 26 6 = 0x00#6) (h0 : w.extractLsb' 0 6 ≠ 0x20#6)
    (h2 : w.extractLsb' 0 6 ≠ 0x22#6) : decode w = .unrecognizedFunct (w.extractLsb' 21 5) (w.extractLsb' 16 5)
      (w.extractLsb' 11 5) (w.extractLsb' 6 5) (w.extractLsb' 0 6) := by
  simp [decode, dispatch, decodeFields, h, h0, h2]

theorem decode_unrecognizedOpcode (h : w.extractLsb' 26 6 ∉ [0x00#6, 0x04#6, 0x08#6, 0x23#6, 0x2B#6]) : decode w =
    .unrecognizedOpcode (w.extractLsb' 26 6) (w.extractLsb' 21 5) (w.extractLsb' 16 5) (w.extractLsb' 11 5)
      (w.extractLsb' 6 5) (w.extractLsb' 0 6) := by
  simp only [List.mem_cons, List.not_mem_nil, or_false, not_or] at h
  simp [decode, dispatch, decodeFields, h]

end

end Sys2Proof
end

