-- ==== Sys2Proof/Laws/Memory.lean ====
section
/-! SUPPORT. The laws of memory as data: what a byte reads as after a write, and that every write keeps the canonical
form and the bound. -/

namespace Sys2Proof.Machine

/-- An address below every listed one reads as an unlisted byte. -/
theorem Memory.read_of_lt {m : Memory} {a : Nat} (h : ∀ c ∈ m, a < c.1) : m.read a = Memory.unlisted := by
  induction m with
  | nil => rfl
  | cons c m ih =>
    obtain ⟨k, b⟩ := c
    have hk : k ≠ a := by have := h (k, b) (by simp); simp at this; omega
    simp only [Memory.read, hk, if_false]
    exact ih fun c hc => h c (by simp [hc])

theorem Memory.wf_tail {c : Host.Cell} {m : Memory} (h : Memory.wf (c :: m)) : Memory.wf m :=
  ⟨(List.pairwise_cons.1 h.1).2, fun d hd => h.2 d (by simp [hd])⟩

/-- The addresses a write leaves listed are those listed before and the one written. -/
theorem Memory.mem_write {m : Memory} {a : Nat} {b : Byte} {c : Host.Cell} (h : c ∈ m.write a b) :
    c ∈ m ∨ (c = (a, b) ∧ b ≠ Memory.unlisted) := by
  induction m with
  | nil =>
    simp only [Memory.write] at h
    split at h <;> simp_all
  | cons d m ih =>
    obtain ⟨k, e⟩ := d
    simp only [Memory.write] at h
    split at h
    · split at h
      · exact .inl h
      · rcases List.mem_cons.1 h with h | h
        · exact .inr ⟨h, by assumption⟩
        · exact .inl h
    · split at h
      · split at h
        · exact .inl (by simp [h])
        · rcases List.mem_cons.1 h with h | h
          · exact .inr ⟨h, by assumption⟩
          · exact .inl (by simp [h])
      · rcases List.mem_cons.1 h with h | h
        · simp [h]
        · rcases ih h with h | h <;> simp [h]

/-- A write keeps the canonical form. -/
theorem Memory.wf_write {m : Memory} (h : m.wf) (a : Nat) (b : Byte) : (m.write a b).wf := by
  refine ⟨?_, fun c hc => ?_⟩
  · induction m with
    | nil => simp only [Memory.write]; split <;> simp
    | cons d m ih =>
      obtain ⟨k, e⟩ := d
      have hlt := (List.pairwise_cons.1 h.1).1
      have htail := ih (Memory.wf_tail h)
      simp only [Memory.write]
      split
      · split
        · exact h.1
        · refine List.pairwise_cons.2 ⟨fun c hc => ?_, h.1⟩
          rcases List.mem_cons.1 hc with rfl | hc
          · simpa
          · have := hlt c hc; simp at this ⊢; omega
      · split
        · split
          · exact (List.pairwise_cons.1 h.1).2
          · refine List.pairwise_cons.2 ⟨fun c hc => ?_, (List.pairwise_cons.1 h.1).2⟩
            have := hlt c hc; simp at this ⊢; omega
        · refine List.pairwise_cons.2 ⟨fun c hc => ?_, htail⟩
          rcases Memory.mem_write hc with hc | ⟨rfl, -⟩
          · exact hlt c hc
          · simp; omega
  · rcases Memory.mem_write hc with hc | ⟨rfl, hb⟩
    · exact h.2 c hc
    · exact hb

/-- A write inside the bound keeps every listed address inside it. -/
theorem Memory.within_write {m : Memory} {n a : Nat} (h : m.within n) (ha : a < n) (b : Byte) :
    (m.write a b).within n := fun c hc => by
  rcases Memory.mem_write hc with hc | ⟨rfl, -⟩
  · exact h c hc
  · exact ha

/-- What a byte reads as after a write: the value written at that address, the old value everywhere else. -/
theorem Memory.read_write {m : Memory} (h : m.wf) (a : Nat) (b : Byte) (a' : Nat) :
    (m.write a b).read a' = if a' = a then b else m.read a' := by
  induction m with
  | nil =>
    simp only [Memory.write]
    split
    · simp_all [Memory.read]
    · simp only [Memory.read]; split <;> split <;> simp_all
  | cons d m ih =>
    obtain ⟨k, e⟩ := d
    have hlt := (List.pairwise_cons.1 h.1).1
    have ih := ih (Memory.wf_tail h)
    simp only [Memory.write]
    split
    · rename_i hak
      split
      · rename_i hb
        split
        · rename_i h'
          subst h'
          rw [hb]
          apply Memory.read_of_lt
          intro c hc
          rcases List.mem_cons.1 hc with rfl | hc
          · exact hak
          · have := hlt c hc; simp at this; omega
        · rfl
      · simp only [Memory.read, eq_comm (a := a)]
    · split
      · rename_i hak
        subst hak
        split
        · rename_i hb
          split
          · rename_i h'
            subst h'
            rw [hb]
            exact Memory.read_of_lt hlt
          · rename_i h'
            have : ¬ a = a' := fun h => h' h.symm
            simp [Memory.read, this]
        · simp only [Memory.read, eq_comm (a := a)]
          split <;> rfl
      · simp only [Memory.read, ih]
        split <;> split <;> first | rfl | omega

@[simp] theorem Memory.read_nil (a : Nat) : Memory.read [] a = 0 := rfl

@[simp] theorem Memory.wf_nil : Memory.wf [] := ⟨List.Pairwise.nil, by simp⟩

@[simp] theorem Memory.within_nil (n : Nat) : Memory.within n [] := by simp [Memory.within]

end Sys2Proof.Machine
end

