-- ==== Sys2Proof/Laws/State.lean ====
section
/-! SUPPORT. What each update of State does to each field and to each register, so that no later proof unfolds a record
update. -/

namespace Sys2Proof.Machine

section
variable (s : State) (r q : RegIdx) (v p w : Word) (e : Event) (o : Obs)

/-! ### setReg -/
@[simp] theorem State.setReg_mem : (s.setReg r v).mem = s.mem := rfl
@[simp] theorem State.setReg_pc : (s.setReg r v).pc = s.pc := rfl
@[simp] theorem State.setReg_cycle : (s.setReg r v).cycle = s.cycle := rfl
@[simp] theorem State.setReg_running : (s.setReg r v).running = s.running := rfl
@[simp] theorem State.setReg_event : (s.setReg r v).event = s.event := rfl
@[simp] theorem State.setReg_trace : (s.setReg r v).trace = s.trace := rfl
@[simp] theorem State.setReg_params : (s.setReg r v).params = s.params := rfl

/-! ### setPc -/
@[simp] theorem State.setPc_mem : (s.setPc v).mem = s.mem := rfl
@[simp] theorem State.setPc_x : (s.setPc v).x = s.x := rfl
@[simp] theorem State.setPc_pc : (s.setPc v).pc = v := rfl
@[simp] theorem State.setPc_cycle : (s.setPc v).cycle = s.cycle := rfl
@[simp] theorem State.setPc_running : (s.setPc v).running = s.running := rfl
@[simp] theorem State.setPc_event : (s.setPc v).event = s.event := rfl
@[simp] theorem State.setPc_trace : (s.setPc v).trace = s.trace := rfl
@[simp] theorem State.setPc_params : (s.setPc v).params = s.params := rfl
@[simp] theorem State.setPc_reg : (s.setPc v).reg r = s.reg r := rfl

/-! ### halt -/
@[simp] theorem State.halt_mem : s.halt.mem = s.mem := rfl
@[simp] theorem State.halt_x : s.halt.x = s.x := rfl
@[simp] theorem State.halt_pc : s.halt.pc = s.pc := rfl
@[simp] theorem State.halt_cycle : s.halt.cycle = s.cycle := rfl
@[simp] theorem State.halt_running : s.halt.running = false := rfl
@[simp] theorem State.halt_event : s.halt.event = s.event := rfl
@[simp] theorem State.halt_trace : s.halt.trace = s.trace := rfl
@[simp] theorem State.halt_params : s.halt.params = s.params := rfl
@[simp] theorem State.halt_reg : s.halt.reg r = s.reg r := rfl

/-! ### countCycle -/
@[simp] theorem State.countCycle_mem : s.countCycle.mem = s.mem := rfl
@[simp] theorem State.countCycle_x : s.countCycle.x = s.x := rfl
@[simp] theorem State.countCycle_pc : s.countCycle.pc = s.pc := rfl
@[simp] theorem State.countCycle_cycle : s.countCycle.cycle = s.cycle + 1 := rfl
@[simp] theorem State.countCycle_running : s.countCycle.running = s.running := rfl
@[simp] theorem State.countCycle_event : s.countCycle.event = s.event := rfl
@[simp] theorem State.countCycle_trace : s.countCycle.trace = s.trace := rfl
@[simp] theorem State.countCycle_params : s.countCycle.params = s.params := rfl
@[simp] theorem State.countCycle_reg : s.countCycle.reg r = s.reg r := rfl

/-! ### emit -/
@[simp] theorem State.emit_mem : (s.emit o).mem = s.mem := rfl
@[simp] theorem State.emit_x : (s.emit o).x = s.x := rfl
@[simp] theorem State.emit_pc : (s.emit o).pc = s.pc := rfl
@[simp] theorem State.emit_cycle : (s.emit o).cycle = s.cycle := rfl
@[simp] theorem State.emit_running : (s.emit o).running = s.running := rfl
@[simp] theorem State.emit_event : (s.emit o).event = s.event := rfl
@[simp] theorem State.emit_trace : (s.emit o).trace = o :: s.trace := rfl
@[simp] theorem State.emit_params : (s.emit o).params = s.params := rfl
@[simp] theorem State.emit_reg : (s.emit o).reg r = s.reg r := rfl

/-! ### advancePc -/
@[simp] theorem State.advancePc_mem : s.advancePc.mem = s.mem := rfl
@[simp] theorem State.advancePc_x : s.advancePc.x = s.x := rfl
@[simp] theorem State.advancePc_pc : s.advancePc.pc = s.pc + 4 := rfl
@[simp] theorem State.advancePc_cycle : s.advancePc.cycle = s.cycle := rfl
@[simp] theorem State.advancePc_running : s.advancePc.running = s.running := rfl
@[simp] theorem State.advancePc_event : s.advancePc.event = s.event := rfl
@[simp] theorem State.advancePc_trace : s.advancePc.trace = s.trace := rfl
@[simp] theorem State.advancePc_params : s.advancePc.params = s.params := rfl
@[simp] theorem State.advancePc_reg : s.advancePc.reg r = s.reg r := rfl

/-! ### retire -/
@[simp] theorem State.retire_mem : (s.retire p w).mem = s.mem := rfl
@[simp] theorem State.retire_x : (s.retire p w).x = s.forceZero.x := rfl
@[simp] theorem State.retire_pc : (s.retire p w).pc = s.pc := rfl
@[simp] theorem State.retire_cycle : (s.retire p w).cycle = s.cycle + 1 := rfl
@[simp] theorem State.retire_running : (s.retire p w).running = s.running := rfl
@[simp] theorem State.retire_event : (s.retire p w).event = .none := rfl
@[simp] theorem State.retire_trace :
    (s.retire p w).trace = s.forceZero.countCycle.record p w :: s.trace := rfl
@[simp] theorem State.retire_params : (s.retire p w).params = s.params := rfl

/-! ### Registers read back -/

@[simp] theorem State.reg_setReg_self : (s.setReg r v).reg r = v := by
  simp [State.reg, State.setReg]

theorem State.reg_setReg_ne (h : q ≠ r) : (s.setReg r v).reg q = s.reg q := by
  have hne : r.toNat ≠ q.toNat := fun h' => h (BitVec.eq_of_toNat_eq h'.symm)
  simp [State.reg, State.setReg, hne]

theorem State.reg_setReg : (s.setReg r v).reg q = if q = r then v else s.reg q := by
  by_cases h : q = r
  · subst h; simp
  · simp [h, State.reg_setReg_ne]

theorem State.reg_retire : (s.retire p w).reg r = if r = 0 then 0 else s.reg r :=
  State.reg_setReg s 0 r 0

@[simp] theorem State.reg_retire_zero : (s.retire p w).reg 0#5 = 0#32 := by
  simp [State.reg_retire]

/-- A register file is known by its registers. -/
theorem State.x_eq_of_reg {s t : State} (h : ∀ r, s.reg r = t.reg r) : s.x = t.x := by
  apply Vector.ext
  intro i hi
  have := h (BitVec.ofNat 5 i)
  simpa [State.reg, Nat.mod_eq_of_lt hi] using this

end

end Sys2Proof.Machine
end

