-- ==== Sys2Proof/Laws/Ops.lean ====
section
/-! SUPPORT. One lemma for each shared operation over memory that says everything it can do. -/

namespace Sys2Proof.Machine

theorem State.inBounds_iff (s : State) (a : Nat) : s.inBounds a = true ↔ a + 3 < s.params.memSize := by
  simp [State.inBounds]

/-- MemRead: the four bytes in bounds, OUT_OF_BOUNDS otherwise. -/
theorem State.memRead_eq (s : State) (a : Nat) : s.memRead a =
    if a + 3 < s.params.memSize then
      some (wordOfBytes (s.mem.read a) (s.mem.read (a + 1)) (s.mem.read (a + 2)) (s.mem.read (a + 3)))
    else none := by
  unfold State.memRead
  by_cases h : a + 3 < s.params.memSize
  · have h0 : a < s.params.memSize := by omega
    have h1 : a + 1 < s.params.memSize := by omega
    have h2 : a + 2 < s.params.memSize := by omega
    simp [s.inBounds_iff, h, h0, h1, h2, State.memReadByte]
  · simp [s.inBounds_iff, h]

/-- MemRead sees nothing of a state but its memory and the memory size. -/
theorem State.memRead_congr {s t : State} (hm : t.mem = s.mem) (hp : t.params.memSize = s.params.memSize) (a : Nat) :
    t.memRead a = s.memRead a := by
  simp [State.memRead_eq, hm, hp]

theorem State.memRead_eq_some {s : State} {a : Nat} {w : Word} : s.memRead a = some w ↔
    a + 3 < s.params.memSize ∧
      wordOfBytes (s.mem.read a) (s.mem.read (a + 1)) (s.mem.read (a + 2)) (s.mem.read (a + 3)) = w := by
  rw [State.memRead_eq]; split <;> simp_all

theorem State.memRead_eq_none {s : State} {a : Nat} : s.memRead a = none ↔ s.params.memSize ≤ a + 3 := by
  rw [State.memRead_eq]; split <;> simp_all

/-- The memory MemWrite leaves: four byte writes. -/
def Memory.writeWord (m : Memory) (a : Nat) (v : Word) : Memory :=
  (((m.write a (byteOfWord v 0)).write (a + 1) (byteOfWord v 1)).write (a + 2) (byteOfWord v 2)).write (a + 3)
    (byteOfWord v 3)

theorem Memory.wf_writeWord {m : Memory} (h : m.wf) (a : Nat) (v : Word) : (m.writeWord a v).wf :=
  Memory.wf_write (Memory.wf_write (Memory.wf_write (Memory.wf_write h _ _) _ _) _ _) _ _

theorem Memory.within_writeWord {m : Memory} {n a : Nat} (h : m.within n) (ha : a + 3 < n) (v : Word) :
    (m.writeWord a v).within n :=
  Memory.within_write (Memory.within_write (Memory.within_write (Memory.within_write h (by omega) _) (by omega) _)
    (by omega) _) ha _

/-- What a byte reads as after a word write. -/
theorem Memory.read_writeWord {m : Memory} (h : m.wf) (a : Nat) (v : Word) (b : Nat) :
    (m.writeWord a v).read b = if b = a then byteOfWord v 0 else if b = a + 1 then byteOfWord v 1
      else if b = a + 2 then byteOfWord v 2 else if b = a + 3 then byteOfWord v 3 else m.read b := by
  have h1 := Memory.wf_write h a (byteOfWord v 0)
  have h2 := Memory.wf_write h1 (a + 1) (byteOfWord v 1)
  have h3 := Memory.wf_write h2 (a + 2) (byteOfWord v 2)
  rw [Memory.writeWord, Memory.read_write h3, Memory.read_write h2, Memory.read_write h1, Memory.read_write h]
  split_ifs <;> first | rfl | omega

theorem Memory.read_writeWord_outside {m : Memory} (h : m.wf) {a b : Nat} (v : Word) (hb : b < a ∨ a + 4 ≤ b) :
    (m.writeWord a v).read b = m.read b := by
  rw [Memory.read_writeWord h]
  have : b ≠ a ∧ b ≠ a + 1 ∧ b ≠ a + 2 ∧ b ≠ a + 3 := by omega
  simp [this]

/-- MemWrite: the word written in bounds and nothing else changed, OUT_OF_BOUNDS otherwise. -/
theorem State.memWrite_eq (s : State) (a : Nat) (v : Word) : s.memWrite a v =
    if a + 3 < s.params.memSize then some { s with mem := s.mem.writeWord a v } else none := by
  unfold State.memWrite
  by_cases h : a + 3 < s.params.memSize
  · have h0 : a < s.params.memSize := by omega
    have h1 : a + 1 < s.params.memSize := by omega
    have h2 : a + 2 < s.params.memSize := by omega
    simp [s.inBounds_iff, h, h0, h1, h2, State.memWriteByte, Memory.writeWord]
  · simp [s.inBounds_iff, h]

theorem State.memWrite_eq_some {s t : State} {a : Nat} {v : Word} : s.memWrite a v = some t ↔
    a + 3 < s.params.memSize ∧ t = { s with mem := s.mem.writeWord a v } := by
  rw [State.memWrite_eq]; split <;> simp_all [eq_comm]

/-- A word written in bounds reads back. -/
theorem State.memRead_writeWord {s : State} (h : s.mem.wf) {a : Nat} (ha : a + 3 < s.params.memSize) (v : Word) :
    State.memRead { s with mem := s.mem.writeWord a v } a = some v := by
  simp [State.memRead_eq, ha, Memory.read_writeWord h]

/-- The loader keeps everything but memory. -/
theorem State.loadFrom_eq (s : State) (a : Nat) (ws : List Word) :
    s.loadFrom a ws = { s with mem := (s.loadFrom a ws).mem } := by
  induction ws generalizing s a with
  | nil => rfl
  | cons w ws ih =>
    simp only [State.loadFrom]
    split
    · rename_i t ht
      rw [ih t]
      rw [(State.memWrite_eq_some.1 ht).2]
    · rfl

/-- The loader keeps memory canonical and inside its size. -/
theorem State.loadFrom_wf {s : State} (h : s.mem.wf) (hn : s.mem.within s.params.memSize) (a : Nat) (ws : List Word) :
    (s.loadFrom a ws).mem.wf ∧ (s.loadFrom a ws).mem.within s.params.memSize := by
  induction ws generalizing s a with
  | nil => exact ⟨h, hn⟩
  | cons w ws ih =>
    simp only [State.loadFrom]
    split
    · rename_i t ht
      obtain ⟨ha, rfl⟩ := State.memWrite_eq_some.1 ht
      exact ih (s := { s with mem := s.mem.writeWord a w }) (Memory.wf_writeWord h a w)
        (Memory.within_writeWord hn ha w) (a + 4)
    · exact ⟨h, hn⟩

end Sys2Proof.Machine
end

