-- ==== Sys2Proof/Laws/PerInstr.lean ====
section
/-! SUPPORT. The family EncodedFields: the decoder reads from the word of an instruction exactly the fields that make
it up (30_encoding.md R83, R88, R93). One lemma for each constructor of Instr. -/

/-- The field set decoded from the word of `i` is the field set `i` was encoded from. -/
def Sys2Proof.Laws.EncodedFields.Statement (i : Sys2Proof.Instr) : Prop :=
  Sys2Proof.decodeFields (Sys2Proof.encode i) = i.fields

namespace Sys2Proof.Laws.EncodedFields

open Sys2Proof

theorem add (rd rs rt shamt : RegIdx) : Statement (.add rd rs rt shamt) := decodeFields_ofSix _ _ _ _ _ _

theorem sub (rd rs rt shamt : RegIdx) : Statement (.sub rd rs rt shamt) := decodeFields_ofSix _ _ _ _ _ _

theorem addi (rt rs : RegIdx) (imm : Imm) : Statement (.addi rt rs imm) := decodeFields_ofImm _ _ _ _

theorem beq (rs rt : RegIdx) (imm : Imm) : Statement (.beq rs rt imm) := decodeFields_ofImm _ _ _ _

theorem sw (rt : RegIdx) (imm : Imm) (rs : RegIdx) : Statement (.sw rt imm rs) := decodeFields_ofImm _ _ _ _

theorem lw (rt : RegIdx) (imm : Imm) (rs : RegIdx) : Statement (.lw rt imm rs) := decodeFields_ofImm _ _ _ _

theorem unrecognizedFunct (rs rt rd shamt : RegIdx) (funct : Code) :
    Statement (.unrecognizedFunct rs rt rd shamt funct) := decodeFields_ofSix _ _ _ _ _ _

theorem unrecognizedOpcode (opcode : Code) (rs rt rd shamt : RegIdx) (funct : Code) :
    Statement (.unrecognizedOpcode opcode rs rt rd shamt funct) := decodeFields_ofSix _ _ _ _ _ _

end Sys2Proof.Laws.EncodedFields
end

