-- ==== Sys2Proof/Laws/Step.lean ====
section
/-! SUPPORT. What EXECUTE of each instruction answers, what no instruction touches, and the three things a step can
do. -/

namespace Sys2Proof.Machine

section
variable (s : State) (rd rs rt sh : RegIdx) (imm : Imm) (op fn : Code)

/-! ### EXECUTE, instruction by instruction -/

@[simp] theorem exec_add : exec (.add rd rs rt sh) s =
    .next { s.setReg rd (s.reg rs + s.reg rt) with event := .none } := rfl

@[simp] theorem exec_sub : exec (.sub rd rs rt sh) s =
    .next { s.setReg rd (s.reg rs - s.reg rt) with event := .none } := rfl

@[simp] theorem exec_addi : exec (.addi rt rs imm) s =
    .next { s.setReg rt (s.reg rs + sext32 imm) with event := .none } := rfl

@[simp] theorem exec_beq : exec (.beq rs rt imm) s =
    .next { s with pc := if s.reg rs = s.reg rt then s.pc + branchOffset imm else s.pc, event := .none } := by
  simp only [exec, execBeq, State.returning]
  split <;> rfl

@[simp] theorem exec_sw : exec (.sw rt imm rs) s =
    if s.effectiveAddress rs imm + 3 < s.params.memSize then
      .next { s with mem := s.mem.writeWord (s.effectiveAddress rs imm) (s.reg rt), event := .none }
    else .next { s with event := .storeOutOfBounds } := by
  by_cases h : s.effectiveAddress rs imm + 3 < s.params.memSize <;>
    simp [exec, execSw, State.memWrite_eq, State.returning, h]

@[simp] theorem exec_lw : exec (.lw rt imm rs) s =
    if s.effectiveAddress rs imm + 3 < s.params.memSize then
      .next { s.setReg rt (wordOfBytes (s.mem.read (s.effectiveAddress rs imm))
        (s.mem.read (s.effectiveAddress rs imm + 1)) (s.mem.read (s.effectiveAddress rs imm + 2))
        (s.mem.read (s.effectiveAddress rs imm + 3))) with event := .none }
    else .next { s with event := .loadOutOfBounds } := by
  by_cases h : s.effectiveAddress rs imm + 3 < s.params.memSize <;>
    simp [exec, execLw, State.memRead_eq, State.returning, h]

@[simp] theorem exec_unrecognizedFunct : exec (.unrecognizedFunct rs rt rd sh fn) s =
    .next { s with event := .unrecognizedFunct } := rfl

@[simp] theorem exec_unrecognizedOpcode : exec (.unrecognizedOpcode op rs rt rd sh fn) s =
    .next { s.halt with event := .unrecognizedOpcode } := rfl

end

/-- No instruction touches the counter, the records or the parameters; memory stays canonical and inside its size; and
the tag is never that of a fetch. -/
theorem exec_keeps {i : Instr} {s t : State} (h : exec i s = .next t) :
    t.cycle = s.cycle ∧ t.trace = s.trace ∧ t.params = s.params ∧ (s.mem.wf → t.mem.wf) ∧
      (s.mem.within s.params.memSize → t.mem.within s.params.memSize) ∧ t.event ≠ .fetchOutOfBounds := by
  cases i with
  | add rd rs rt sh => simp at h; subst h; simp
  | sub rd rs rt sh => simp at h; subst h; simp
  | addi rt rs imm => simp at h; subst h; simp
  | beq rs rt imm => simp at h; subst h; simp
  | sw rt imm rs =>
    rw [exec_sw] at h
    split at h <;> rename_i hb <;> simp at h <;> subst h
    · exact ⟨rfl, rfl, rfl, fun hw => Memory.wf_writeWord hw _ _, fun hn => Memory.within_writeWord hn hb _, by simp⟩
    · simp
  | lw rt imm rs =>
    rw [exec_lw] at h
    split at h <;> simp at h <;> subst h <;> simp
  | unrecognizedFunct rs rt rd sh fn => simp at h; subst h; simp
  | unrecognizedOpcode op rs rt rd sh fn => simp at h; subst h; simp

theorem State.halted_iff (s : State) :
    s.halted = true ↔ s.running = false ∨ s.params.maxCycles.toNat ≤ s.cycle.toNat := by
  simp [State.halted]

theorem State.not_halted_iff (s : State) :
    s.halted = false ↔ s.running = true ∧ s.cycle.toNat < s.params.maxCycles.toNat := by
  simp [State.halted]

/-- In HALTED a step is the identity. -/
theorem step_of_halted {s : State} (h : s.halted = true) : step s = .next s := by simp [step, h]

/-- Everything a step can do: stand still in HALTED, halt on a fetch out of bounds, or complete a cycle. -/
theorem step_cases {s t : State} (h : step s = .next t) :
    (s.halted = true ∧ t = s) ∨
    (s.halted = false ∧ s.params.memSize ≤ s.pc.toNat + 3 ∧ t = s.fetchHalt) ∨
    (∃ w u, s.halted = false ∧ s.memRead s.pc.toNat = some w ∧ exec (decode w) s.advancePc = .next u ∧
      t = u.retire s.pc w) := by
  unfold step at h
  split at h
  · exact .inl ⟨by assumption, by simpa using h.symm⟩
  · rename_i hh
    have hh : s.halted = false := by simpa using hh
    split at h
    · rename_i hf
      exact .inr (.inl ⟨hh, State.memRead_eq_none.1 hf, by simpa using h.symm⟩)
    · rename_i w hf
      split at h
      · rename_i u hu
        exact .inr (.inr ⟨w, u, hh, hf, hu, by simpa using h.symm⟩)
      · simp at h
      · simp at h

/-- A cycle that starts and fetches a word completes as its EXECUTE does. -/
theorem step_of_fetch {s u : State} {w : Word} (h : s.halted = false) (hf : s.memRead s.pc.toNat = some w)
    (hu : exec (decode w) s.advancePc = .next u) : step s = .next (u.retire s.pc w) := by
  simp [step, h, State.fetch, hf, hu]

/-- A cycle that starts and fetches outside memory halts. -/
theorem step_of_fetch_outside {s : State} (h : s.halted = false) (hf : s.params.memSize ≤ s.pc.toNat + 3) :
    step s = .next s.fetchHalt := by
  simp [step, h, State.fetch, State.memRead_eq_none.2 hf]

/-! ### The fetch that halts -/

@[simp] theorem State.fetchHalt_mem (s : State) : s.fetchHalt.mem = s.mem := by unfold State.fetchHalt; split <;> rfl
@[simp] theorem State.fetchHalt_x (s : State) : s.fetchHalt.x = s.x := by unfold State.fetchHalt; split <;> rfl
@[simp] theorem State.fetchHalt_pc (s : State) : s.fetchHalt.pc = s.pc := by unfold State.fetchHalt; split <;> rfl
@[simp] theorem State.fetchHalt_running (s : State) : s.fetchHalt.running = false := by
  unfold State.fetchHalt; split <;> rfl
@[simp] theorem State.fetchHalt_params (s : State) : s.fetchHalt.params = s.params := by
  unfold State.fetchHalt; split <;> rfl
@[simp] theorem State.fetchHalt_event (s : State) : s.fetchHalt.event = s.event := by
  unfold State.fetchHalt; split <;> rfl

/-! ### withFetchWord -/

theorem State.readyToFetch_halted (s : State) : s.readyToFetch.halted = false := by
  rw [State.not_halted_iff]
  refine ⟨rfl, ?_⟩
  simp only [State.readyToFetch]
  by_cases h0 : s.params.maxCycles = 0
  · simp [h0]
  · have : 0 < s.params.maxCycles.toNat := by
      rcases Nat.eq_zero_or_pos s.params.maxCycles.toNat with h | h
      · exact absurd (BitVec.eq_of_toNat_eq (by simpa using h)) h0
      · exact h
    simp only [h0, if_false]
    split <;> simp_all

theorem State.readyToFetch_inBounds {s : State} (h : s.params.valid) :
    s.readyToFetch.pc.toNat + 3 < s.readyToFetch.params.memSize := by
  obtain ⟨h4, -⟩ := h
  simp only [State.readyToFetch]
  split
  · rename_i hb; exact (s.inBounds_iff _).1 hb
  · simp; omega

/-- `withFetchWord` does what it is for: from any state with legal parameters and canonical memory, the very next step
fetches the word and completes the cycle its EXECUTE gives. -/
theorem step_withFetchWord {s u : State} (hp : s.params.valid) (hm : s.mem.wf) (n w : Nat)
    (hu : exec (decode (tableWord n w)) (s.withFetchWord n w).advancePc = .next u) :
    step (s.withFetchWord n w) = .next (u.retire s.readyToFetch.pc (tableWord n w)) := by
  have hb := State.readyToFetch_inBounds hp
  have he : s.withFetchWord n w = { s.readyToFetch with
      mem := s.mem.writeWord s.readyToFetch.pc.toNat (tableWord n w) } := by
    rw [State.withFetchWord, State.placeWord, State.memWrite_eq, if_pos hb, Option.getD_some]
    rfl
  have hh : (s.withFetchWord n w).halted = false := by rw [he]; exact s.readyToFetch_halted
  have hf : (s.withFetchWord n w).memRead (s.withFetchWord n w).pc.toNat = some (tableWord n w) := by
    rw [he]; exact State.memRead_writeWord (s := s.readyToFetch) hm hb _
  rw [step_of_fetch hh hf hu]
  rw [he]

end Sys2Proof.Machine
end

