-- ==== Sys2Proof/Laws/Run.lean ====
section
/-! SUPPORT. A run of the host's machine, one step at a time. -/

namespace Sys2Proof.Machine

@[simp] theorem core_run_zero (s : State) : Sys2Proof.core.run 0 s = .next s := rfl

theorem core_run_zero_next {s t : State} (h : Sys2Proof.core.run 0 s = .next t) : t = s := by
  injection h with h
  exact h.symm

theorem core_run_next {s t : State} (h : step s = .next t) (k : Nat) :
    Sys2Proof.core.run (k + 1) s = Sys2Proof.core.run k t := by
  have h' : Sys2Proof.core.step s = .next t := h
  simp only [Host.Core.run, h']

end Sys2Proof.Machine
end

