-- ==== Sys2Proof/Tests/Slice0.lean ====
section
/-! SUPPORT. The model's own tests: the WellFormed smoke test, decoding of words written out from 30_encoding.md R81 and
R88, one or two steps for each instruction with the results of 95_test_vectors.md, and, for every statement with
hypotheses, a state that meets them (witness_…). -/

namespace Sys2Proof.Tests

open Sys2Proof.Machine

/-- The reset state with registers `xs`, pc at `pc` and the word `w` stored there. -/
def start (pc w : Word) (xs : List (RegIdx × Word)) : State :=
  ((xs.foldl (fun s p => s.setReg p.1 p.2) State.reset).setPc pc).placeWord w

/-- The state after one step. -/
def after (s : State) : State :=
  match step s with
  | .next t => t
  | .fault _ => s
  | .refused _ => s

/-- A halted core with a register, memory and the counter in use. -/
def haltedCore : State :=
  { (start 0 0x11223344 [(8, 7)]) with pc := 4, cycle := 3, running := false }

/-- The event of the newest record. -/
def lastEvent (s : State) : Option Event := s.trace.head?.map (·.event)

/-! ### WellFormed refuses -/

theorem test_wf_refuses_funct_of_add : (Instr.unrecognizedFunct 1 2 3 0 0x20).wellFormed = false := by decide
theorem test_wf_refuses_funct_of_sub : (Instr.unrecognizedFunct 1 2 3 0 0x22).wellFormed = false := by decide
theorem test_wf_refuses_known_opcodes :
    [0x00, 0x04, 0x08, 0x23, 0x2B].all (fun c => !(Instr.unrecognizedOpcode c 1 2 3 0 0).wellFormed) = true := by decide
theorem test_wf_admits_neighbours : ((Instr.unrecognizedFunct 1 2 3 0 0x21).wellFormed &&
    (Instr.unrecognizedOpcode 0x09 1 2 3 0 0).wellFormed) = true := by decide

/-! ### Decoding, words of 95_test_vectors.md 2.1, bit by bit (opcode, rs, rt, then rd, shamt, funct or imm) -/

theorem test_decode_add : decode 0b000000_01000_01001_01011_00000_100000 = .add 11 8 9 0 := by decide
theorem test_decode_add_ignores_shamt : decode 0b000000_01000_01001_01011_00010_100000 = .add 11 8 9 2 := by decide
theorem test_decode_sub : decode 0b000000_01000_01001_01011_00000_100010 = .sub 11 8 9 0 := by decide
theorem test_decode_addi : decode 0b001000_01000_00111_1111111111111111 = .addi 7 8 0xFFFF := by decide
theorem test_decode_beq : decode 0b000100_01000_01001_0000000000000010 = .beq 8 9 2 := by decide
theorem test_decode_sw : decode 0b101011_01000_01001_0000000000000100 = .sw 9 4 8 := by decide
theorem test_decode_lw : decode 0b100011_01000_01010_0000000000000100 = .lw 10 4 8 := by decide
theorem test_decode_zero_word : decode 0x00000000 = .unrecognizedFunct 0 0 0 0 0 := by decide
theorem test_decode_syscall_is_unrecognized_funct : decode 0x0000000C = .unrecognizedFunct 0 0 0 0 0x0C := by decide
theorem test_decode_jump_is_unrecognized_opcode : decode 0x08000000 = .unrecognizedOpcode 0x02 0 0 0 0 0 := by decide
theorem test_decode_bytes_big_endian :
    decodeBytes [0x20, 0x08, 0x00, 0x05, 0xAA] = .ok (.addi 8 0 5, [0xAA]) := by decide
theorem test_decode_too_few_bytes : decodeBytes [0x20, 0x08, 0x00] = .error (.tooFewBytes 3) := by decide
theorem test_encode_sw : encode (.sw 9 4 8) = 0xAD090004 := by decide
theorem test_decode_table_word : decodeTableWord 32 0x01095820 = some (.add 11 8 9 0) := by decide

/-! ### One step, results of 95_test_vectors.md 2.2 to 2.5 -/

theorem test_add_overflow_wraps :
    (after (start 0 0x01095820 [(8, 0x7FFFFFFF), (9, 1)])).reg 11 = 0x80000000 := by decide
theorem test_add_reads_before_writing : (after (start 0 0x01084020 [(8, 0x40000000)])).reg 8 = 0x80000000 := by decide
theorem test_add_to_zero_register : (after (start 0 0x01090020 [(8, 5), (9, 3)])).reg 0 = 0 := by decide
theorem test_sub_order : (after (start 0 0x01095822 [(8, 3), (9, 5)])).reg 11 = 0xFFFFFFFE := by decide
theorem test_addi_negative : (after (start 0 0x2128FFFF [(9, 0x80000000)])).reg 8 = 0x7FFFFFFF := by decide
theorem test_addi_overflow : (after (start 0 0x21280001 [(9, 0x7FFFFFFF)])).reg 8 = 0x80000000 := by decide
theorem test_beq_taken : (after (start 8 0x11090002 [(8, 7), (9, 7)])).pc = 20 := by decide
theorem test_beq_backward_wraps : (after (start 4 0x1109FFFD [])).pc = 0xFFFFFFFC := by decide
theorem test_sw_last_word : ((after (start 0 0xAD09FFFC [(8, 0x1000), (9, 0x12345678)])).mem.read 4092,
    (after (start 0 0xAD09FFFC [(8, 0x1000), (9, 0x12345678)])).mem.read 4095) = (0x12, 0x78) := by decide
theorem test_sw_one_past_end_writes_nothing :
    ((after (start 0 0xAC090FFD [(9, 0x12345678)])).mem.read 4093,
      lastEvent (after (start 0 0xAC090FFD [(9, 0x12345678)]))) = (0, some .storeOutOfBounds) := by decide
theorem test_lw_misaligned_modular_address :
    (after (start 0 0x8D090004 [(8, 0xFFFFFFFF)])).reg 9 = 0x04000000 := by decide
theorem test_lw_address_does_not_wrap : ((after (start 0 0x8D090000 [(8, 0xFFFFFFFD), (9, 7)])).reg 9,
    lastEvent (after (start 0 0x8D090000 [(8, 0xFFFFFFFD), (9, 7)]))) = (7, some .loadOutOfBounds) := by decide
theorem test_unrecognized_funct_goes_on :
    ((after (start 12 0 [])).pc, (after (start 12 0 [])).running, (after (start 12 0 [])).cycle) =
      (16, true, 1) := by decide
theorem test_unrecognized_opcode_halts :
    ((after (start 0 0xFC000000 [])).pc, (after (start 0 0xFC000000 [])).running,
      (after (start 0 0xFC000000 [])).cycle) = (4, false, 1) := by decide
theorem test_sw_over_itself_shows_in_record :
    (after (start 4 0xAC090004 [(9, 0x11223344)])).trace.head?.bind (·.memWord) = some 0x11223344 := by decide
theorem test_budget_zero_runs_nothing :
    (after { start 0 0x20080005 [] with params := { memSize := 4096, maxCycles := 0 } }).pc = 0 := by decide
theorem test_loader_stops_at_end_of_memory : ((State.launch { memSize := 8, maxCycles := 1 }
    [0x01020304, 0x05060708, 0x090A0B0C]).mem).length = 8 := by decide
theorem test_image_is_applied_after_reset :
    (match clockEdges [0x20080005, 0xFC000000] [true, false, false] { core := haltedCore, loadPending := false } with
      | .next b => some (b.core.reg 8, b.core.cycle, b.core.running)
      | _ => none) = some (5, 2, false) := by decide
theorem test_withFetchWord_runs_the_word :
    (after (State.reset.withFetchWord 32 0x20080005)).reg 8 = 5 := by decide
theorem test_assembly_spelling : (Instr.addi 8 0 5).assembly = some "ADDI $t0, $zero, 5" := by decide

/-! ### Witnesses: states that meet the hypotheses of the statements -/

/-- P1's ADD at 8, about to run. -/
def addState : State := start 8 0x01095820 [(8, 5), (9, 3)]
/-- SW $t1, 4($t0) that stores at pc + 4, the next word to fetch. -/
def swState : State := start 16 0xAD090004 [(8, 16), (9, 0x20080005)]
/-- SW $t1, 8($t0) that stores at pc + 8, the word fetched the cycle after next. -/
def swLaterState : State := start 16 0xAD090008 [(8, 16), (9, 0x20080005)]
/-- SW at the last word of memory. -/
def swEdgeState : State := start 0 0xAC090FFC [(9, 1)]
/-- LW of the word at 0. -/
def lwState : State := start 0 0x8C0A0000 []
/-- A taken BEQ at 8. -/
def beqState : State := start 8 0x11090002 [(8, 7), (9, 7)]
/-- A BEQ at 8 not taken. -/
def beqElseState : State := start 8 0x11090002 [(8, 7), (9, 6)]
/-- A halting word. -/
def haltState : State := start 0 0xFC000000 []
/-- The first pc whose word leaves memory. -/
def outsideState : State := start 4093 0 []
/-- One cycle of budget left. -/
def lastCycleState : State := { start 0 0 [] with params := { memSize := 4096, maxCycles := 1 } }

theorem witness_DecodeEncodeRoundTrip : (Instr.unrecognizedOpcode 0x3F 0 0 0 0 0).wellFormed = true := by decide

theorem witness_StepRunsDecodedInstruction : addState.running = true ∧
    addState.cycle.toNat < addState.params.maxCycles.toNat ∧ addState.pc.toNat + 3 < addState.params.memSize ∧
    addState.mem.read 8 = 0x01 ∧ addState.mem.read 9 = 0x09 ∧ addState.mem.read 10 = 0x58 ∧
    addState.mem.read 11 = 0x20 ∧ decodeBytes [0x01, 0x09, 0x58, 0x20] = .ok (.add 11 8 9 0, []) := by decide

theorem witness_HaltedIsLeftOnlyByReset_flag : (after haltState).outputs.halted = true ∧
    0 < (after haltState).params.maxCycles.toNat := by decide
theorem witness_HaltedIsLeftOnlyByReset_budget : (after lastCycleState).running = true ∧
    (after lastCycleState).outputs.halted = true := by decide

theorem witness_FetchOutOfBoundsHalts : outsideState.fetchesOutside := by decide

theorem witness_RegisterZeroForcedEveryCycle : (start 0 0x20000005 []).fetches 0x20000005 := by decide

theorem witness_CycleCountsCompletedCycles : step addState = .next (after addState) ∧ addState.fetches 0x01095820 :=
  ⟨rfl, by decide⟩
theorem witness_CycleCountsCompletedCycles_outside : (∃ t, step outsideState = .next t) ∧ outsideState.fetchesOutside :=
  ⟨⟨_, rfl⟩, by decide⟩
theorem witness_CycleCountsCompletedCycles_halted :
    step (after haltState) = .next (after (after haltState)) ∧ (after haltState).halted = true := ⟨rfl, by decide⟩

theorem witness_RunningClearedExactlyByTwoHalts : step haltState = .next (after haltState) ∧ haltState.running = true ∧
    haltState.fetches 0xFC000000 ∧ (decode 0xFC000000).mnemonic = .UNRECOGNIZED_OPCODE :=
  ⟨rfl, by decide, by decide, by decide⟩
theorem witness_RunningClearedExactlyByTwoHalts_stopped : (after haltState).running = false ∧
    step (after haltState) = .next (after haltState) := ⟨by decide, rfl⟩
theorem witness_RunningClearedExactlyByTwoHalts_exec :
    exec (.add 11 8 9 0) addState = .next { addState.setReg 11 8 with event := .none } := rfl

theorem witness_RecordedEventTellsItsCause_inside : swEdgeState.fetches 0xAC090FFC ∧
    decode 0xAC090FFC = .sw 9 0xFFC 0 ∧ ¬ 4096 ≤ (swEdgeState.reg 0 + (0xFFC : Imm).signExtend 32).toNat + 3 := by decide
theorem witness_RecordedEventTellsItsCause_outside : (start 0 0x8C090FFD []).fetches 0x8C090FFD ∧
    decode 0x8C090FFD = .lw 9 0xFFD 0 ∧ 4096 ≤ ((start 0 0x8C090FFD []).reg 0 + (0xFFD : Imm).signExtend 32).toNat + 3 := by
  decide

theorem witness_RecordHoldsTheCycle : lwState.fetches 0x8C0A0000 := by decide

theorem witness_AddWritesSum : addState.fetches 0x01095820 ∧
    (0x01095820 : Word) &&& 0xFC00003F = 0x00000020 := by decide
theorem witness_SubWritesDifference : (start 0 0x01095822 []).fetches 0x01095822 ∧
    (0x01095822 : Word) &&& 0xFC00003F = 0x00000022 := by decide
theorem witness_AddiAddsSignedImmediate : (start 0 0x2108FFFF []).fetches 0x2108FFFF ∧
    (0x2108FFFF : Word) &&& 0xFC000000 = 0x20000000 := by decide

theorem witness_BeqBranchesIfEqual_taken : beqState.fetches 0x11090002 ∧
    (0x11090002 : Word) &&& 0xFC000000 = 0x10000000 ∧ beqState.reg 8 = beqState.reg 9 := by decide
theorem witness_BeqBranchesIfEqual_not_taken : beqElseState.fetches 0x11090002 ∧
    beqElseState.reg 8 ≠ beqElseState.reg 9 := by decide
theorem witness_BeqBranchesIfEqual_target_outside : (start 4 0x1109FFFD []).fetches 0x1109FFFD ∧
    (after (start 4 0x1109FFFD [])).fetchesOutside := by decide

theorem witness_OnlyBeqTransfersControl : addState.fetches 0x01095820 ∧ (decode 0x01095820).mnemonic ≠ .BEQ := by decide

theorem witness_BranchHasNoDelaySlot_taken : beqState.fetches 0x11090002 ∧ decode 0x11090002 = .beq 8 9 2 ∧
    beqState.reg 8 = beqState.reg 9 ∧ step beqState = .next (after beqState) ∧ (after beqState).fetches 0 :=
  ⟨by decide, by decide, by decide, rfl, by decide⟩
theorem witness_BranchHasNoDelaySlot_not_taken : beqElseState.fetches 0x11090002 ∧
    step beqElseState = .next (after beqElseState) ∧ (after beqElseState).fetches 0 := ⟨by decide, rfl, by decide⟩

theorem witness_SwStoresWord_inside : swEdgeState.mem.wf ∧
    swEdgeState.effectiveAddress 0 0xFFC + 3 < swEdgeState.params.memSize ∧ swEdgeState.fetches 0xAC090FFC ∧
    (0xAC090FFC : Word) &&& 0xFC000000 = 0xAC000000 := by decide
theorem witness_SwStoresWord_outside : (start 0 0xAC090FFD []).mem.wf ∧ (start 0 0xAC090FFD []).fetches 0xAC090FFD ∧
    (start 0 0xAC090FFD []).params.memSize ≤ (start 0 0xAC090FFD []).effectiveAddress 0 0xFFD + 3 := by decide

theorem witness_LwLoadsWord_inside : lwState.effectiveAddress 0 0xFFC + 3 < lwState.params.memSize ∧
    lwState.fetches 0x8C0A0000 ∧ (0x8C0A0000 : Word) &&& 0xFC000000 = 0x8C000000 ∧
    regField 0x8C0A0000 16 ≠ 0 := by decide
theorem witness_LwLoadsWord_outside : (start 0 0x8C090FFD []).fetches 0x8C090FFD ∧
    (start 0 0x8C090FFD []).params.memSize ≤ (start 0 0x8C090FFD []).effectiveAddress 0 0xFFD + 3 ∧
    regField 0x8C090FFD 16 ≠ 0 := by decide

theorem witness_LoadAfterStoreYieldsStoredWord : swEdgeState.mem.wf ∧
    swEdgeState.effectiveAddress 0 0xFFC + 3 < swEdgeState.params.memSize := by decide

theorem witness_WordAccessIsBigEndian : addState.mem.wf ∧ 4092 + 3 < addState.params.memSize ∧
    addState.params.memSize ≤ 4093 + 3 := by decide

theorem witness_OverlappingAccessesSeeBytes : addState.mem.wf ∧ 4088 + 7 < addState.params.memSize := by decide

theorem witness_SignedAndUnsignedAddressesAgree : addState.params.valid ∧
    addState.effectiveAddress 8 0xFFFF + 3 < addState.params.memSize := by decide

theorem witness_StoreIsSeenByNextFetch : swState.mem.wf ∧ swState.fetches 0xAD090004 ∧
    decode 0xAD090004 = .sw 9 4 8 ∧ swState.effectiveAddress 8 4 + 3 < swState.params.memSize ∧
    step swState = .next (after swState) ∧ (after swState).halted = false ∧
    (after swState).pc.toNat = swState.effectiveAddress 8 4 :=
  ⟨by decide, by decide, by decide, by decide, rfl, by decide, by decide⟩

theorem witness_StoreIsSeenByNextFetch_later : swLaterState.mem.wf ∧ swLaterState.fetches 0xAD090008 ∧
    decode 0xAD090008 = .sw 9 8 8 ∧ swLaterState.effectiveAddress 8 8 + 3 < swLaterState.params.memSize ∧
    step swLaterState = .next (after swLaterState) ∧
    Sys2Proof.core.run 1 (after swLaterState) = .next (after (after swLaterState)) ∧
    (∀ (j : Nat) (v : State), j < 1 → Sys2Proof.core.run j (after swLaterState) = .next v →
      ¬ v.storesInto (swLaterState.effectiveAddress 8 8)) ∧
    (after (after swLaterState)).halted = false ∧
    (after (after swLaterState)).pc.toNat = swLaterState.effectiveAddress 8 8 := by
  refine ⟨by decide, by decide, by decide, by decide, rfl, rfl, ?_, by decide, by decide⟩
  rintro j v hj hv ⟨w, rt, imm, rs, hf, hw, -⟩
  obtain rfl : j = 0 := by omega
  obtain rfl := core_run_zero_next hv
  have h0 : (after swLaterState).memRead (after swLaterState).pc.toNat = some 0 := by decide
  obtain rfl : (0 : Word) = w := Option.some.inj (h0.symm.trans hf.2.2)
  have h1 : decode 0 = .unrecognizedFunct 0 0 0 0 0 := by decide
  exact absurd (h1.symm.trans hw) (by simp)

theorem witness_ResetEdgeDiscardsEverything :
    Block.loadPending { core := haltedCore, loadPending := false } = false := rfl

theorem witness_UnrecognizedFunctChangesNothing : (start 0 0x00000021 []).fetches 0x00000021 ∧
    (0x00000021 : Word).extractLsb' 26 6 = 0x00#6 ∧ (0x00000021 : Word).extractLsb' 0 6 ≠ 0x20#6 ∧
    (0x00000021 : Word).extractLsb' 0 6 ≠ 0x22#6 := by decide

theorem witness_UnrecognizedOpcodeHalts : haltState.fetches 0xFC000000 ∧
    (0xFC000000 : Word).extractLsb' 26 6 ∉ [0x00#6, 0x04#6, 0x08#6, 0x23#6, 0x2B#6] := by decide

theorem witness_OnlySwChangesMemory : swEdgeState.mem.wf ∧ step swEdgeState = .next (after swEdgeState) ∧
    (after swEdgeState).mem.read 4095 ≠ swEdgeState.mem.read 4095 := ⟨by decide, rfl, by decide⟩

theorem witness_OnlyDestinationRegisterChanges : step addState = .next (after addState) ∧ (11 : RegIdx) ≠ 0 ∧
    (after addState).reg 11 ≠ addState.reg 11 := ⟨rfl, by decide, by decide⟩

theorem witness_CounterInvisibleToInstructions :
    sameMachine addState { addState with cycle := 7 } ∧ addState.halted = false ∧
    State.halted { addState with cycle := 7 } = false ∧ step addState = .next (after addState) ∧
    step { addState with cycle := 7 } = .next (after { addState with cycle := 7 }) :=
  ⟨⟨rfl, rfl, rfl, rfl⟩, by decide, by decide, rfl, rfl⟩

theorem witness_PcStaysWordAligned : beqState.pc.toNat % 4 = 0 ∧ step beqState = .next (after beqState) :=
  ⟨by decide, rfl⟩

theorem witness_ParametersAndRecordsPersist : step addState = .next (after addState) := rfl

theorem witness_EqualReadsMeanEqualMemory :
    Memory.wf [(0, 1), (4, 2)] ∧ Memory.wf (Memory.write [(0, 1)] 4 2) ∧
    ∀ a, Memory.read [(0, 1), (4, 2)] a = Memory.read (Memory.write [(0, 1)] 4 2) a :=
  ⟨by decide, by decide, fun _ => rfl⟩

theorem witness_StepKeepsInvariant : addState.Inv ∧ step addState = .next (after addState) :=
  ⟨by constructor <;> decide, rfl⟩
theorem witness_StepKeepsInvariant_after_a_cycle : (after addState).Inv := by constructor <;> decide

theorem witness_LoaderPlacesImage : Params.valid { memSize := 8, maxCycles := 1 } ∧
    ([0x01020304, 0x05060708, 0x090A0B0C] : List Word)[1]? = some 0x05060708 ∧ 4 * 1 + 3 < 8 ∧
    ∀ i, i < 1 → 4 * i + 3 < 8 → 4 < 4 * i ∨ 4 * i + 4 ≤ 4 := by decide

theorem witness_EveryRunEnds : addState.cycle.toNat ≤ addState.params.maxCycles.toNat ∧
    addState.params.maxCycles.toNat - addState.cycle.toNat ≤ 1000 := by decide

theorem witness_StopReasonIsTheCause_opcode : haltState.Inv ∧ haltState.halted = false ∧
    step haltState = .next (after haltState) ∧ (after haltState).halted = true ∧
    (after haltState).stopReason = some .unrecognizedOpcode :=
  ⟨by constructor <;> decide, by decide, rfl, by decide, by decide⟩
theorem witness_StopReasonIsTheCause_fetch : (start 4096 0 []).Inv ∧ (start 4096 0 []).halted = false ∧
    ∃ t, step (start 4096 0 []) = .next t ∧ t.halted = true :=
  ⟨by constructor <;> decide, by decide, _, rfl, by
    show State.halted (State.fetchHalt _) = true
    unfold State.fetchHalt; split <;> rfl⟩
theorem witness_StopReasonIsTheCause_budget : lastCycleState.Inv ∧ lastCycleState.halted = false ∧
    step lastCycleState = .next (after lastCycleState) ∧ (after lastCycleState).halted = true ∧
    (after lastCycleState).running = true :=
  ⟨by constructor <;> decide, by decide, rfl, by decide, by decide⟩

theorem witness_StepRefinesFlatMachine : swState.Inv := by constructor <;> decide

end Sys2Proof.Tests
end

/-! The invariant of the machine, field by field, and what a step does to the parameters and the records. -/

namespace Sys2Proof.Machine

/-! ### pc stays a multiple of 4 (10_state.md R29) -/

theorem word_add_aligned {a b : Word} (ha : a.toNat % 4 = 0) (hb : b.toNat % 4 = 0) : (a + b).toNat % 4 = 0 := by
  rw [BitVec.toNat_add]
  omega

theorem branchOffset_aligned (imm : Imm) : (branchOffset imm).toNat % 4 = 0 := by
  rw [branchOffset, BitVec.toNat_shiftLeft, Nat.shiftLeft_eq]
  omega

/-- EXECUTE leaves the advanced pc where it is or adds a branch offset to it (42_branch.md R154). -/
theorem exec_pc_cases {i : Instr} {s t : State} (h : exec i s = .next t) :
    t.pc = s.pc ∨ ∃ imm, t.pc = s.pc + branchOffset imm := by
  cases i with
  | add rd rs rt sh => cases h; exact .inl rfl
  | sub rd rs rt sh => cases h; exact .inl rfl
  | addi rt rs imm => cases h; exact .inl rfl
  | beq rs rt imm =>
    rw [exec_beq] at h
    cases h
    by_cases heq : s.reg rs = s.reg rt
    · exact .inr ⟨imm, if_pos heq⟩
    · exact .inl (if_neg heq)
  | sw rt imm rs => rw [exec_sw] at h; split at h <;> cases h <;> exact .inl rfl
  | lw rt imm rs => rw [exec_lw] at h; split at h <;> cases h <;> exact .inl rfl
  | unrecognizedFunct rs rt rd sh fn => cases h; exact .inl rfl
  | unrecognizedOpcode op rs rt rd sh fn => cases h; exact .inl rfl

theorem exec_keeps_pc_aligned {i : Instr} {s t : State} (h : exec i s = .next t) (hs : s.pc.toNat % 4 = 0) :
    t.pc.toNat % 4 = 0 := by
  obtain hpc | ⟨imm, hpc⟩ := exec_pc_cases h
  · rwa [hpc]
  · rw [hpc]
    exact word_add_aligned hs (branchOffset_aligned imm)

theorem advancePc_aligned {s : State} (h : s.pc.toNat % 4 = 0) : s.advancePc.pc.toNat % 4 = 0 :=
  word_add_aligned h rfl

/-! ### The running flag and the event tag (10_state.md R30) -/

/-- EXECUTE leaves a machine running exactly if it ran before and the tag is not that of an unrecognised opcode. -/
theorem exec_running_iff {i : Instr} {s t : State} (h : exec i s = .next t) :
    t.running = true ↔ s.running = true ∧ t.event ≠ .unrecognizedOpcode := by
  cases i with
  | add rd rs rt sh => cases h; simp
  | sub rd rs rt sh => cases h; simp
  | addi rt rs imm => cases h; simp
  | beq rs rt imm => rw [exec_beq] at h; cases h; simp
  | sw rt imm rs => rw [exec_sw] at h; split at h <;> cases h <;> simp
  | lw rt imm rs => rw [exec_lw] at h; split at h <;> cases h <;> simp
  | unrecognizedFunct rs rt rd sh fn => cases h; simp
  | unrecognizedOpcode op rs rt rd sh fn => cases h; simp

/-! ### The count and the records (40_cycle.md R120, R126) -/

/-- A cycle that starts can be counted without wrap: the budget is a 64-bit value (10_state.md R31). -/
theorem toNat_cycle_succ {s : State} (h : s.halted = false) : (s.cycle + 1).toNat = s.cycle.toNat + 1 := by
  have hlt := (s.not_halted_iff.1 h).2
  have hmax := s.params.maxCycles.isLt
  rw [BitVec.toNat_add, show (1 : Count).toNat = 1 from rfl]
  omega

/-- The fetch that halts is counted and recorded, or neither (R113), whichever value FETCH_HALT_COUNTS has. -/
theorem State.fetchHalt_counts (s : State) :
    (s.fetchHalt.cycle = s.cycle ∧ s.fetchHalt.trace = s.trace) ∨
    (s.fetchHalt.cycle = s.cycle + 1 ∧ ∃ r, s.fetchHalt.trace = r :: s.trace) := by
  unfold State.fetchHalt
  split
  · exact .inr ⟨rfl, _, rfl⟩
  · exact .inl ⟨rfl, rfl⟩

/-- Settles O35: of the three things a step can do, one changes neither field, and the two that end a cycle keep the
parameters and add at most one record. -/
theorem parametersAndRecordsPersist : Obligations.ParametersAndRecordsPersist := by
  intro s t h
  obtain ⟨-, rfl⟩ | ⟨-, -, rfl⟩ | ⟨w, u, -, -, hu, rfl⟩ := step_cases h
  · exact ⟨rfl, .inl rfl⟩
  · refine ⟨s.fetchHalt_params, ?_⟩
    obtain ⟨-, htrace⟩ | ⟨-, hrecord⟩ := s.fetchHalt_counts
    · exact .inl htrace
    · exact .inr hrecord
  · obtain ⟨-, htrace, hparams, -⟩ := exec_keeps hu
    exact ⟨hparams, .inr ⟨_, congrArg _ htrace⟩⟩

/-! ### The invariant -/

/-- The cycle of a fetch out of bounds keeps the invariant: it stops the machine, so its record may tell of a halt. -/
theorem State.Inv.fetchHalt {s : State} (hs : s.Inv) (hrun : s.halted = false) : s.fetchHalt.Inv := by
  have hlt := (s.not_halted_iff.1 hrun).2
  have hsucc := toNat_cycle_succ hrun
  have hcount : s.fetchHalt.cycle.toNat ≤ s.params.maxCycles.toNat ∧
      s.fetchHalt.trace.length = s.fetchHalt.cycle.toNat := by
    obtain ⟨hcycle, htrace⟩ | ⟨hcycle, r, htrace⟩ := s.fetchHalt_counts
    · rw [hcycle, htrace]
      exact ⟨hs.cycle_le, hs.trace_length⟩
    · rw [hcycle, htrace, hsucc, List.length_cons, hs.trace_length]
      exact ⟨hlt, rfl⟩
  exact {
    params_valid := by simpa using hs.params_valid
    mem_wf       := by simpa using hs.mem_wf
    mem_within   := by simpa using hs.mem_within
    zero_reg     := by simpa [State.reg] using hs.zero_reg
    pc_aligned   := by simpa using hs.pc_aligned
    cycle_le     := by simpa using hcount.1
    trace_length := hcount.2
    event_none   := by simpa using hs.event_none
    no_halt_seen := by simp }

/-- A completed cycle keeps the invariant: register 0 is forced, the one record is counted, and if the machine still
runs, that record's tag is neither that of an unrecognised opcode nor that of a fetch. -/
theorem State.Inv.retire {s u : State} {i : Instr} (hs : s.Inv) (hrun : s.halted = false)
    (hu : exec i s.advancePc = .next u) (p w : Word) : (u.retire p w).Inv := by
  have hlt := (s.not_halted_iff.1 hrun).2
  have hsucc := toNat_cycle_succ hrun
  obtain ⟨hcycle, htrace, hparams, hwf, hwithin, hfetch⟩ := exec_keeps hu
  simp only [advancePc_cycle, advancePc_trace, advancePc_params, advancePc_mem]
    at hcycle htrace hparams hwf hwithin
  refine {
    params_valid := by rw [retire_params, hparams]; exact hs.params_valid
    mem_wf       := hwf hs.mem_wf
    mem_within   := by rw [retire_params, hparams]; exact hwithin hs.mem_within
    zero_reg     := reg_retire_zero u p w
    pc_aligned   := by rw [retire_pc]; exact exec_keeps_pc_aligned hu (advancePc_aligned hs.pc_aligned)
    cycle_le     := by rw [retire_cycle, retire_params, hcycle, hparams, hsucc]; exact hlt
    trace_length := by
      rw [retire_trace, retire_cycle, hcycle, htrace, hsucc, List.length_cons, hs.trace_length]
    event_none   := rfl
    no_halt_seen := fun hrunning r hr => ?_ }
  obtain ⟨hsrun, hopcode⟩ := (exec_running_iff hu).1 hrunning
  rw [retire_trace, htrace] at hr
  obtain rfl | hold := List.mem_cons.1 hr
  · exact ⟨hopcode, hfetch⟩
  · exact hs.no_halt_seen hsrun r hold

/-- Settles O37: HALTED changes nothing, and both ways a cycle can end keep the invariant. -/
theorem stepKeepsInvariant : Obligations.StepKeepsInvariant := by
  intro s t hs h
  obtain ⟨-, rfl⟩ | ⟨hrun, -, rfl⟩ | ⟨w, u, hrun, -, hu, rfl⟩ := step_cases h
  · exact hs
  · exact hs.fetchHalt hrun
  · exact hs.retire hrun hu s.pc w

end Sys2Proof.Machine

/-! The architectural state (10_state.md): its reset values, and what a step does to the program counter, the running
flag and the registers, and what it cannot see. -/

namespace Sys2Proof.Machine

/-! ### Reset (10_state.md R37) -/

@[simp] theorem reg_resetWith (p : Params) (r : RegIdx) : (State.resetWith p).reg r = 0 := by
  simp [State.reg, State.resetWith]

/-- Under legal parameters a run starts inside the invariant: memory and the records are empty. -/
theorem State.Inv.resetWith {p : Params} (hp : p.valid) : (State.resetWith p).Inv where
  params_valid := hp
  mem_wf       := Memory.wf_nil
  mem_within   := Memory.within_nil _
  zero_reg     := reg_resetWith p 0
  pc_aligned   := rfl
  cycle_le     := Nat.zero_le _
  trace_length := rfl
  event_none   := rfl
  no_halt_seen := fun _ _ hr => absurd hr List.not_mem_nil

/-- Settles O38: every field by the definition of reset, and the invariant because the default parameters are legal. -/
theorem resetValues : Obligations.ResetValues :=
  ⟨Memory.read_nil, reg_resetWith _, rfl, rfl, rfl, .resetWith (by decide)⟩

/-! ### The program counter (10_state.md R29) -/

/-- Settles O34: a cycle that completes adds 4 and perhaps a branch offset to pc, both multiples of 4; every other step
leaves pc where it is. -/
theorem pcStaysWordAligned : Obligations.PcStaysWordAligned := by
  intro s t hs h
  obtain ⟨-, rfl⟩ | ⟨-, -, rfl⟩ | ⟨w, u, -, -, hu, rfl⟩ := step_cases h
  · exact hs
  · rwa [s.fetchHalt_pc]
  · rw [u.retire_pc]
    exact exec_keeps_pc_aligned hu (advancePc_aligned hs)

/-! ### The running flag (10_state.md R30) -/

theorem State.fetches_iff {s : State} {w : Word} :
    s.fetches w ↔ s.halted = false ∧ s.memRead s.pc.toNat = some w := by
  rw [s.not_halted_iff, and_assoc]

theorem State.fetchesOutside_iff {s : State} :
    s.fetchesOutside ↔ s.halted = false ∧ s.memRead s.pc.toNat = none := by
  rw [s.not_halted_iff, State.memRead_eq_none, and_assoc]

/-- The tag of an unrecognised opcode comes from that row of the table and from no other. -/
theorem exec_event_unrecognizedOpcode_iff {i : Instr} {s t : State} (h : exec i s = .next t) :
    t.event = .unrecognizedOpcode ↔ i.mnemonic = .UNRECOGNIZED_OPCODE := by
  cases i with
  | add rd rs rt sh => cases h; simp [Instr.mnemonic]
  | sub rd rs rt sh => cases h; simp [Instr.mnemonic]
  | addi rt rs imm => cases h; simp [Instr.mnemonic]
  | beq rs rt imm => rw [exec_beq] at h; cases h; simp [Instr.mnemonic]
  | sw rt imm rs => rw [exec_sw] at h; split at h <;> cases h <;> simp [Instr.mnemonic]
  | lw rt imm rs => rw [exec_lw] at h; split at h <;> cases h <;> simp [Instr.mnemonic]
  | unrecognizedFunct rs rt rd sh fn => cases h; simp [Instr.mnemonic]
  | unrecognizedOpcode op rs rt rd sh fn => cases h; simp [Instr.mnemonic]

/-- EXECUTE stops a running machine exactly if the opcode is unrecognised. -/
theorem exec_stops_iff {i : Instr} {s t : State} (h : exec i s = .next t) (hs : s.running = true) :
    t.running = false ↔ i.mnemonic = .UNRECOGNIZED_OPCODE := by
  rw [← exec_event_unrecognizedOpcode_iff h, ← Bool.not_eq_true, exec_running_iff h]
  simp [hs]

/-- No step sets the running flag: a stopped machine is HALTED. -/
theorem step_of_stopped {s t : State} (h : step s = .next t) (hs : s.running = false) : t = s := by
  rw [step_of_halted (s.halted_iff.2 (.inl hs))] at h
  cases h
  rfl

/-- A step stops a running machine exactly on a fetch out of bounds or an unrecognised opcode (R112, R171). -/
theorem step_stops_iff {s t : State} (h : step s = .next t) (hs : s.running = true) :
    t.running = false ↔
      s.fetchesOutside ∨ ∃ w, s.fetches w ∧ (decode w).mnemonic = .UNRECOGNIZED_OPCODE := by
  simp only [State.fetches_iff, State.fetchesOutside_iff]
  obtain ⟨hhalt, rfl⟩ | ⟨hrun, hout, rfl⟩ | ⟨w, u, hrun, hf, hu, rfl⟩ := step_cases h
  · simp [hhalt, hs]
  · simp [hrun, State.memRead_eq_none.2 hout]
  · simp [hrun, hf, exec_stops_iff hu hs]

/-! ### The registers (10_state.md R24) -/

theorem eq_of_reg_setReg_ne {s : State} {r q : RegIdx} {v : Word} (h : (s.setReg r v).reg q ≠ s.reg q) : q = r :=
  Classical.byContradiction fun hne => h (s.reg_setReg_ne r q v hne)

/-- Only ADD, SUB, ADDI and an LW in bounds write a register, and only their destination. -/
theorem exec_writes_only_destination {i : Instr} {s t : State} {q : RegIdx} (h : exec i s = .next t)
    (hq : t.reg q ≠ s.reg q) :
    (∃ rs rt shamt, i = .add q rs rt shamt) ∨ (∃ rs rt shamt, i = .sub q rs rt shamt) ∨
      (∃ rs imm, i = .addi q rs imm) ∨
      (∃ imm rs, i = .lw q imm rs ∧ s.effectiveAddress rs imm + 3 < s.params.memSize) := by
  cases i with
  | add rd rs rt sh =>
    cases h
    obtain rfl := eq_of_reg_setReg_ne hq
    exact .inl ⟨rs, rt, sh, rfl⟩
  | sub rd rs rt sh =>
    cases h
    obtain rfl := eq_of_reg_setReg_ne hq
    exact .inr (.inl ⟨rs, rt, sh, rfl⟩)
  | addi rt rs imm =>
    cases h
    obtain rfl := eq_of_reg_setReg_ne hq
    exact .inr (.inr (.inl ⟨rs, imm, rfl⟩))
  | beq rs rt imm => rw [exec_beq] at h; cases h; exact absurd rfl hq
  | sw rt imm rs => rw [exec_sw] at h; split at h <;> cases h <;> exact absurd rfl hq
  | lw rt imm rs =>
    rw [exec_lw] at h
    split at h <;> rename_i hb <;> cases h
    · obtain rfl := eq_of_reg_setReg_ne hq
      exact .inr (.inr (.inr ⟨imm, rs, rfl, hb⟩))
    · exact absurd rfl hq
  | unrecognizedFunct rs rt rd sh fn => cases h; exact absurd rfl hq
  | unrecognizedOpcode op rs rt rd sh fn => cases h; exact absurd rfl hq

/-- Settles O32: HALTED and a fetch out of bounds keep every register, and the end of a completed cycle forces only
register 0, so that the change is that of EXECUTE. -/
theorem onlyDestinationRegisterChanges : Obligations.OnlyDestinationRegisterChanges := by
  intro s t q h hq0 hq
  obtain ⟨-, rfl⟩ | ⟨-, -, rfl⟩ | ⟨w, u, hrun, hf, hu, rfl⟩ := step_cases h
  · exact absurd rfl hq
  · exact absurd (by simp [State.reg]) hq
  · rw [State.reg_retire, if_neg hq0] at hq
    have hdest := exec_writes_only_destination hu hq
    exact ⟨w, State.fetches_iff.2 ⟨hrun, hf⟩, hdest⟩

/-! ### What instructions cannot see (10_state.md R30, R31, R36) -/

/-- Memory, registers and pc agree. -/
abbrev sameVisible (s s' : State) : Prop := s'.mem = s.mem ∧ s'.x = s.x ∧ s'.pc = s.pc

section
variable {s s' : State}

theorem State.reg_congr (hx : s'.x = s.x) (r : RegIdx) : s'.reg r = s.reg r := by
  simp [State.reg, hx]

theorem State.effectiveAddress_congr (hx : s'.x = s.x) (rs : RegIdx) (imm : Imm) :
    s'.effectiveAddress rs imm = s.effectiveAddress rs imm := by
  simp [State.effectiveAddress, State.reg_congr hx]

theorem sameVisible_setReg (hv : sameVisible s s') (r : RegIdx) (v : Word) :
    sameVisible (s.setReg r v) (s'.setReg r v) := by
  obtain ⟨hmem, hx, hpc⟩ := hv
  exact ⟨hmem, by simp [State.setReg, hx], hpc⟩

/-- EXECUTE sees memory, registers, pc and the memory size only: where they agree, it changes them alike and returns
the same tag. -/
theorem exec_sameVisible {i : Instr} {t : State} (hv : sameVisible s s')
    (hp : s'.params.memSize = s.params.memSize) (h : exec i s = .next t) :
    ∃ t', exec i s' = .next t' ∧ sameVisible t t' ∧ t'.event = t.event := by
  have ⟨hmem, hx, hpc⟩ := hv
  cases i with
  | add rd rs rt sh =>
    cases h
    rw [exec_add, State.reg_congr hx, State.reg_congr hx]
    exact ⟨_, rfl, sameVisible_setReg hv rd _, rfl⟩
  | sub rd rs rt sh =>
    cases h
    rw [exec_sub, State.reg_congr hx, State.reg_congr hx]
    exact ⟨_, rfl, sameVisible_setReg hv rd _, rfl⟩
  | addi rt rs imm =>
    cases h
    rw [exec_addi, State.reg_congr hx]
    exact ⟨_, rfl, sameVisible_setReg hv rt _, rfl⟩
  | beq rs rt imm =>
    rw [exec_beq] at h
    cases h
    rw [exec_beq, State.reg_congr hx, State.reg_congr hx, hpc]
    exact ⟨_, rfl, ⟨hmem, hx, rfl⟩, rfl⟩
  | sw rt imm rs =>
    rw [exec_sw] at h ⊢
    rw [State.effectiveAddress_congr hx, State.reg_congr hx, hmem, hp]
    split at h <;> rename_i hb <;> cases h
    · exact ⟨_, if_pos hb, ⟨rfl, hx, hpc⟩, rfl⟩
    · exact ⟨_, if_neg hb, ⟨rfl, hx, hpc⟩, rfl⟩
  | lw rt imm rs =>
    rw [exec_lw] at h ⊢
    rw [State.effectiveAddress_congr hx, hmem, hp]
    split at h <;> rename_i hb <;> cases h
    · exact ⟨_, if_pos hb, sameVisible_setReg hv rt _, rfl⟩
    · exact ⟨_, if_neg hb, ⟨rfl, hx, hpc⟩, rfl⟩
  | unrecognizedFunct rs rt rd sh fn => cases h; exact ⟨_, rfl, hv, rfl⟩
  | unrecognizedOpcode op rs rt rd sh fn => cases h; exact ⟨_, rfl, hv, rfl⟩

/-- Machines alike in the running flag too are alike in it after EXECUTE, for the tag tells whether it was cleared. -/
theorem exec_sameMachine {i : Instr} {t : State} (hm : sameMachine s s')
    (hp : s'.params.memSize = s.params.memSize) (h : exec i s = .next t) :
    ∃ t', exec i s' = .next t' ∧ sameMachine t t' := by
  obtain ⟨hmem, hx, hpc, hrun⟩ := hm
  obtain ⟨t', h', ⟨hmem', hx', hpc'⟩, hevent⟩ := exec_sameVisible ⟨hmem, hx, hpc⟩ hp h
  have hrun' : t'.running = t.running := by
    rw [Bool.eq_iff_iff, exec_running_iff h', exec_running_iff h, hrun, hevent]
  exact ⟨t', h', hmem', hx', hpc', hrun'⟩

theorem sameMachine_advancePc (hm : sameMachine s s') : sameMachine s.advancePc s'.advancePc := by
  obtain ⟨hmem, hx, hpc, hrun⟩ := hm
  exact ⟨hmem, hx, congrArg (· + 4) hpc, hrun⟩

theorem sameMachine_fetchHalt (hm : sameMachine s s') : sameMachine s.fetchHalt s'.fetchHalt := by
  obtain ⟨hmem, hx, hpc, -⟩ := hm
  simp [sameMachine, hmem, hx, hpc]

/-- The end of a cycle keeps machines alike, whatever its record says. -/
theorem sameMachine_retire (hm : sameMachine s s') (p p' w w' : Word) :
    sameMachine (s.retire p w) (s'.retire p' w') := by
  obtain ⟨hmem, hx, hpc, hrun⟩ := hm
  obtain ⟨-, hx', -⟩ := sameVisible_setReg ⟨hmem, hx, hpc⟩ 0 0
  exact ⟨hmem, hx', hpc, hrun⟩

end

/-- No instruction reads the running flag: with another value of it EXECUTE gives a state that differs in it alone. -/
theorem exec_of_other_running {i : Instr} {s t : State} (b : Bool) (h : exec i s = .next t) :
    ∃ c, exec i { s with running := b } = .next { t with running := c } := by
  obtain ⟨t', h', ⟨hmem, hx, hpc⟩, hevent⟩ :=
    exec_sameVisible (s := s) (s' := { s with running := b }) ⟨rfl, rfl, rfl⟩ rfl h
  obtain ⟨hcycle, htrace, hparams, -⟩ := exec_keeps h
  obtain ⟨hcycle', htrace', hparams', -⟩ := exec_keeps h'
  refine ⟨t'.running, h'.trans ?_⟩
  rw [← hmem, ← hx, ← hpc, ← hevent, hcycle, htrace, hparams, ← hcycle', ← htrace', ← hparams']

/-- Settles O12: reset sets the flag, a stopped machine stands still, a running one stops for the two causes only, and
EXECUTE does not read the flag. -/
theorem runningClearedExactlyByTwoHalts : Obligations.RunningClearedExactlyByTwoHalts := by
  refine ⟨rfl, fun s t h => ⟨fun hs => ?_, step_stops_iff h⟩, fun i s t b h => exec_of_other_running b h⟩
  rwa [step_of_stopped h hs]

/-- Settles O33: both machines fetch the same word or both fetch outside memory, and each part of the cycle keeps them
alike. -/
theorem counterInvisibleToInstructions : Obligations.CounterInvisibleToInstructions := by
  intro s s' t t' hm hp hrun hrun' h h'
  have ⟨hmem, _, hpc, _⟩ := hm
  obtain ⟨hhalt, -⟩ | ⟨-, hout, rfl⟩ | ⟨w, u, -, hf, hu, rfl⟩ := step_cases h
  · simp [hrun] at hhalt
  · rw [← hp, ← hpc] at hout
    rw [step_of_fetch_outside hrun' hout] at h'
    cases h'
    exact sameMachine_fetchHalt hm
  · obtain ⟨u', hu', hmu⟩ := exec_sameMachine (sameMachine_advancePc hm) hp hu
    rw [← State.memRead_congr hmem hp, ← hpc] at hf
    rw [step_of_fetch hrun' hf hu'] at h'
    cases h'
    exact sameMachine_retire hmu s.pc s'.pc w w

end Sys2Proof.Machine

/-! Memory (20_memory.md): the array of its bytes, the words made of four of them, and what an SW changes. -/

namespace Sys2Proof.Machine

/-! ### Memory as the array of its bytes (20_memory.md R50) -/

/-- A canonical memory lists exactly the bytes that do not read as an unlisted one. -/
theorem Memory.mem_iff_read {m : Memory} (h : m.wf) (a : Nat) (b : Byte) :
    (a, b) ∈ m ↔ m.read a = b ∧ b ≠ Memory.unlisted := by
  induction m with
  | nil => simp [Memory.read, eq_comm]
  | cons c m ih =>
    obtain ⟨k, e⟩ := c
    have hlt := (List.pairwise_cons.1 h.1).1
    have he : e ≠ Memory.unlisted := h.2 (k, e) List.mem_cons_self
    by_cases hk : k = a
    · subst hk
      have htail : (k, b) ∉ m := fun hmem => Nat.lt_irrefl k (hlt _ hmem)
      simp only [List.mem_cons, Prod.mk.injEq, true_and, htail, or_false, Memory.read, if_true]
      constructor
      · rintro rfl
        exact ⟨rfl, he⟩
      · rintro ⟨rfl, -⟩
        rfl
    · simp [Memory.read, hk, Ne.symm hk, ih (Memory.wf_tail h)]

theorem Memory.nodup_of_wf {m : Memory} (h : m.wf) : m.Nodup :=
  h.1.imp fun hlt heq => Nat.ne_of_lt hlt (congrArg _ heq)

/-- Settles O36: the reads tell which cells are listed, and the rising addresses fix their order. -/
theorem equalReadsMeanEqualMemory : Obligations.EqualReadsMeanEqualMemory := by
  intro m m' hm hm' hread
  have hperm : m.Perm m' :=
    (List.perm_ext_iff_of_nodup (Memory.nodup_of_wf hm) (Memory.nodup_of_wf hm')).2 fun ⟨a, b⟩ => by
      rw [Memory.mem_iff_read hm, Memory.mem_iff_read hm', hread]
  exact hperm.eq_of_pairwise (fun _ _ _ _ h h' => absurd h' (Nat.lt_asymm h)) hm.1 hm'.1

/-! ### Word accesses (20_memory.md R51, R53 to R55, R68) -/

/-- Settles O25: the bounds of both primitives are the one test, and the four bytes of the word written are the word
MemRead gives back. -/
theorem wordAccessIsBigEndian : Obligations.WordAccessIsBigEndian := by
  intro s a v hwf
  refine ⟨fun ha => ⟨State.memRead_eq_some.2 ⟨ha, rfl⟩, ?_⟩, fun ha => ⟨State.memRead_eq_none.2 ha, ?_⟩⟩
  · have hback := State.memRead_eq_some.1 (State.memRead_writeWord hwf ha v)
    exact ⟨_, State.memWrite_eq_some.2 ⟨ha, rfl⟩, rfl, hback.2,
      fun b hb => Memory.read_writeWord_outside hwf v hb⟩
  · rw [State.memWrite_eq, if_neg (by omega)]

/-- The last two bytes of a word are its low half, the first two its high half. -/
theorem wordOfBytes_of_halves (v u : Word) :
    wordOfBytes (byteOfWord v 2) (byteOfWord v 3) (byteOfWord u 0) (byteOfWord u 1) =
      v.extractLsb' 0 16 ++ u.extractLsb' 16 16 := by
  have hv : byteOfWord v 2 ++ byteOfWord v 3 = v.extractLsb' 0 16 :=
    BitVec.extractLsb'_append_extractLsb'_eq_extractLsb' rfl
  have hu : byteOfWord u 0 ++ byteOfWord u 1 = u.extractLsb' 16 16 :=
    BitVec.extractLsb'_append_extractLsb'_eq_extractLsb' rfl
  rw [← hv, ← hu]
  exact BitVec.append_assoc

/-- Settles O28: the word at `a + 2` takes its first two bytes from the first word and its last two from the second. -/
theorem overlappingAccessesSeeBytes : Obligations.OverlappingAccessesSeeBytes := by
  intro s a v u hwf ha
  have hfirst : a + 3 < s.params.memSize := by omega
  have hsecond : a + 4 + 3 < s.params.memSize := by omega
  have hmiddle : a + 2 + 3 < s.params.memSize := by omega
  refine ⟨_, _, State.memWrite_eq_some.2 ⟨hfirst, rfl⟩, State.memWrite_eq_some.2 ⟨hsecond, rfl⟩, ?_⟩
  rw [State.memRead_eq_some, ← wordOfBytes_of_halves]
  refine ⟨hmiddle, ?_⟩
  simp [Memory.read_writeWord hwf, Memory.read_writeWord (Memory.wf_writeWord hwf a v), Nat.add_assoc]

/-! ### Signed and unsigned addresses (20_memory.md R56) -/

/-- The effective address is the signed sum modulo 2^32. -/
theorem State.effectiveAddress_eq_emod (s : State) (rs : RegIdx) (imm : Imm) :
    (s.effectiveAddress rs imm : Int) = ((s.reg rs).toInt + imm.toInt) % 2 ^ 32 := by
  have hsum : s.reg rs + sext32 imm = BitVec.ofInt 32 ((s.reg rs).toInt + imm.toInt) := by
    rw [BitVec.ofInt_add, BitVec.ofInt_toInt, sext32_eq_ofInt]
  rw [State.effectiveAddress, hsum, BitVec.toNat_ofInt]
  omega

/-- Settles O26: the signed sum lies within 2^31 + 2^15 of 0, so that a sum outside the memory is at least 2^30 modulo
2^32, beyond every legal memory. -/
theorem signedAndUnsignedAddressesAgree : Obligations.SignedAndUnsignedAddressesAgree := by
  intro s rs imm ⟨_, hmax⟩
  have haddr := s.effectiveAddress_eq_emod rs imm
  have hreg : -2 ^ 31 ≤ (s.reg rs).toInt ∧ (s.reg rs).toInt < 2 ^ 31 := ⟨BitVec.le_toInt _, BitVec.toInt_lt⟩
  have himm : -2 ^ 15 ≤ imm.toInt ∧ imm.toInt < 2 ^ 15 := ⟨BitVec.le_toInt _, BitVec.toInt_lt⟩
  omega

/-! ### Only an SW in bounds changes memory (20_memory.md R54, 43_loadstore.md R161, R162) -/

/-- `t` has the memory of `s` with one word stored by the SW in bounds that `s` fetches. -/
def State.storesWord (s t : State) : Prop :=
  ∃ w rt imm rs, s.fetches w ∧ decode w = .sw rt imm rs ∧ s.effectiveAddress rs imm + 3 < s.params.memSize ∧
    t.mem = s.mem.writeWord (s.effectiveAddress rs imm) (s.reg rt)

/-- EXECUTE keeps memory, or it is that of an SW in bounds and stores one word. -/
theorem exec_mem_cases {i : Instr} {s t : State} (h : exec i s = .next t) :
    t.mem = s.mem ∨ ∃ rt imm rs, i = .sw rt imm rs ∧ s.effectiveAddress rs imm + 3 < s.params.memSize ∧
      t.mem = s.mem.writeWord (s.effectiveAddress rs imm) (s.reg rt) := by
  cases i with
  | add rd rs rt sh => cases h; exact .inl rfl
  | sub rd rs rt sh => cases h; exact .inl rfl
  | addi rt rs imm => cases h; exact .inl rfl
  | beq rs rt imm => rw [exec_beq] at h; cases h; exact .inl rfl
  | sw rt imm rs =>
    rw [exec_sw] at h
    split at h <;> rename_i hb <;> cases h
    · exact .inr ⟨rt, imm, rs, rfl, hb, rfl⟩
    · exact .inl rfl
  | lw rt imm rs => rw [exec_lw] at h; split at h <;> cases h <;> exact .inl rfl
  | unrecognizedFunct rs rt rd sh fn => cases h; exact .inl rfl
  | unrecognizedOpcode op rs rt rd sh fn => cases h; exact .inl rfl

/-- A step keeps memory or stores one word. -/
theorem step_mem_cases {s t : State} (h : step s = .next t) : t.mem = s.mem ∨ s.storesWord t := by
  obtain ⟨-, rfl⟩ | ⟨-, -, rfl⟩ | ⟨w, u, hrun, hf, hu, rfl⟩ := step_cases h
  · exact .inl rfl
  · exact .inl s.fetchHalt_mem
  · obtain hmem | ⟨rt, imm, rs, hi, hb, hmem⟩ := exec_mem_cases hu
    · exact .inl hmem
    · exact .inr ⟨w, rt, imm, rs, State.fetches_iff.2 ⟨hrun, hf⟩, hi, hb, hmem⟩

/-- Settles O31: a step that changes a byte has stored a word, and a word store keeps every other byte. -/
theorem onlySwChangesMemory : Obligations.OnlySwChangesMemory := by
  intro s t b hwf h hb
  obtain hmem | ⟨w, rt, imm, rs, hf, hw, hin, hmem⟩ := step_mem_cases h
  · exact absurd (by rw [hmem]) hb
  · refine ⟨w, rt, imm, rs, hf, hw, hin, ?_⟩
    by_contra hout
    exact hb (by rw [hmem, Memory.read_writeWord_outside hwf _ (by omega)])

/-! ### A stored word is what later fetches read (20_memory.md R66) -/

/-- Every step keeps memory canonical. -/
theorem step_keeps_mem_wf {s t : State} (hwf : s.mem.wf) (h : step s = .next t) : t.mem.wf := by
  obtain hmem | ⟨w, rt, imm, rs, -, -, -, hmem⟩ := step_mem_cases h
  · rwa [hmem]
  · rw [hmem]
    exact Memory.wf_writeWord hwf _ _

/-- A step that stores to none of the four bytes from `a` on keeps the word at `a`. -/
theorem step_keeps_memRead {s t : State} {a : Nat} (hwf : s.mem.wf) (h : step s = .next t)
    (hno : ¬ s.storesInto a) : t.memRead a = s.memRead a := by
  have hsize : t.params.memSize = s.params.memSize := congrArg _ (parametersAndRecordsPersist s t h).1
  obtain hmem | ⟨w, rt, imm, rs, hf, hw, hin, hmem⟩ := step_mem_cases h
  · exact State.memRead_congr hmem hsize a
  · have hdisjoint : ¬ (s.effectiveAddress rs imm < a + 4 ∧ a < s.effectiveAddress rs imm + 4) :=
      fun hover => hno ⟨w, rt, imm, rs, hf, hw, hin, hover⟩
    have hbyte : ∀ b, a ≤ b → b < a + 4 → t.mem.read b = s.mem.read b := fun b hlo hhi => by
      rw [hmem, Memory.read_writeWord_outside hwf _ (by omega)]
    rw [State.memRead_eq, State.memRead_eq, hsize, hbyte a (by omega) (by omega), hbyte (a + 1) (by omega) (by omega),
      hbyte (a + 2) (by omega) (by omega), hbyte (a + 3) (by omega) (by omega)]

/-- EXECUTE answers a next state for every instruction (60_exceptions.md R180). -/
theorem exec_total (i : Instr) (s : State) : ∃ t, exec i s = .next t := by
  cases i with
  | add rd rs rt sh => exact ⟨_, rfl⟩
  | sub rd rs rt sh => exact ⟨_, rfl⟩
  | addi rt rs imm => exact ⟨_, rfl⟩
  | beq rs rt imm => exact ⟨_, exec_beq s rs rt imm⟩
  | sw rt imm rs => rw [exec_sw]; split <;> exact ⟨_, rfl⟩
  | lw rt imm rs => rw [exec_lw]; split <;> exact ⟨_, rfl⟩
  | unrecognizedFunct rs rt rd sh fn => exact ⟨_, rfl⟩
  | unrecognizedOpcode op rs rt rd sh fn => exact ⟨_, rfl⟩

/-- A cycle that fetches a word ends with a record of that word and of its address (40_cycle.md R126). -/
theorem step_of_fetches {s : State} {w : Word} (hf : s.fetches w) :
    ∃ t r, step s = .next t ∧ t.trace = r :: s.trace ∧ r.word = some w ∧ r.pcBefore = s.pc := by
  obtain ⟨hrun, hword⟩ := State.fetches_iff.1 hf
  obtain ⟨u, hu⟩ := exec_total (decode w) s.advancePc
  obtain ⟨-, htrace, -⟩ := exec_keeps hu
  exact ⟨_, _, step_of_fetch hrun hword hu, congrArg _ htrace, rfl, rfl⟩

/-- Every state has a next state. -/
theorem step_total (s : State) : ∃ t, step s = .next t := by
  cases hhalt : s.halted with
  | true => exact ⟨s, step_of_halted hhalt⟩
  | false =>
    cases hword : s.memRead s.pc.toNat with
    | none => exact ⟨_, step_of_fetch_outside hhalt (State.memRead_eq_none.1 hword)⟩
    | some w =>
      obtain ⟨t, -, ht, -⟩ := step_of_fetches (State.fetches_iff.2 ⟨hhalt, hword⟩)
      exact ⟨t, ht⟩

/-- A run none of whose steps stores to the four bytes from `a` on keeps the word at `a`. -/
theorem run_keeps_memRead {a k : Nat} {s t : State} (hwf : s.mem.wf) (h : Sys2Proof.core.run k s = .next t)
    (hno : ∀ (j : Nat) (v : State), j < k → Sys2Proof.core.run j s = .next v → ¬ v.storesInto a) :
    t.memRead a = s.memRead a := by
  induction k generalizing s with
  | zero => rw [core_run_zero_next h]
  | succ k ih =>
    obtain ⟨u, hu⟩ := step_total s
    rw [core_run_next hu] at h
    have hrest := ih (step_keeps_mem_wf hwf hu) h fun j v hj hv =>
      hno (j + 1) v (Nat.succ_lt_succ hj) ((core_run_next hu j).trans hv)
    exact hrest.trans (step_keeps_memRead hwf hu (hno 0 s k.succ_pos (core_run_zero s)))

/-- After the cycle of an SW in bounds the stored word stands at its address. -/
theorem memRead_of_step_sw {s t : State} {w : Word} {rt rs : RegIdx} {imm : Imm} (hwf : s.mem.wf) (hf : s.fetches w)
    (hw : decode w = .sw rt imm rs) (hin : s.effectiveAddress rs imm + 3 < s.params.memSize)
    (h : step s = .next t) : t.memRead (s.effectiveAddress rs imm) = some (s.reg rt) := by
  obtain ⟨hrun, hword⟩ := State.fetches_iff.1 hf
  have hu : exec (decode w) s.advancePc = .next { s.advancePc with
      mem := s.mem.writeWord (s.effectiveAddress rs imm) (s.reg rt), event := .none } := by
    rw [hw, exec_sw]
    exact if_pos hin
  rw [step_of_fetch hrun hword hu] at h
  cases h
  exact State.memRead_writeWord hwf hin (s.reg rt)

/-- Settles O27: the storing cycle puts the word in memory, no step of the run overwrites it, and the cycle that fetches
it records it. -/
theorem storeIsSeenByNextFetch : Obligations.StoreIsSeenByNextFetch := by
  intro s t w rt imm rs hwf hf hw hin h
  obtain ⟨t', r, ht', htrace, hrecord, -⟩ := step_of_fetches hf
  cases h.symm.trans ht'
  refine ⟨⟨r, htrace, hrecord⟩, fun k u hk hno => ?_⟩
  have hstored : u.memRead (s.effectiveAddress rs imm) = some (s.reg rt) :=
    (run_keeps_memRead (step_keeps_mem_wf hwf h) hk hno).trans (memRead_of_step_sw hwf hf hw hin h)
  refine ⟨hstored, fun hrun hpc => ?_⟩
  rw [← hpc] at hstored
  exact step_of_fetches (State.fetches_iff.2 ⟨hrun, hstored⟩)

end Sys2Proof.Machine

/-! The encoding (30_encoding.md): the field set of a word, the row that each word selects, and the round trips between
words and instructions. -/

namespace Sys2Proof

/-! ### The field set of a word (R93) -/

/-- The immediate is the overlap `{rd, shamt, funct}`. -/
theorem decodeFields_imm (w : Word) :
    (decodeFields w).imm = (decodeFields w).rd ++ (decodeFields w).shamt ++ (decodeFields w).funct := by
  simpa [decodeFields, BitVec.extractLsb'_extractLsb'_of_le] using (imm_parts (decodeFields w).imm).symm

/-- The six fields lie side by side in the word: each append lengthens the slice, down to bit 0. -/
theorem encode_decodeFields (w : Word) : (decodeFields w).encode = w := by
  simp only [Fields.encode, decodeFields]
  iterate 5 rw [BitVec.extractLsb'_append_extractLsb'_eq_extractLsb' (by rfl)]
  exact BitVec.extractLsb'_eq_self

/-- Settles O1: the fields are adjacent slices of the word, the lower three those of the immediate. -/
theorem fieldsReencodeToWord : Obligations.FieldsReencodeToWord := fun w =>
  ⟨encode_decodeFields w, decodeFields_imm w⟩

theorem decodeFields_eq_ofSix (w : Word) : decodeFields w = .ofSix (w.extractLsb' 26 6) (w.extractLsb' 21 5)
    (w.extractLsb' 16 5) (w.extractLsb' 11 5) (w.extractLsb' 6 5) (w.extractLsb' 0 6) :=
  congrArg (fun imm => { decodeFields w with imm := imm }) (decodeFields_imm w)

theorem decodeFields_eq_ofImm (w : Word) : decodeFields w = .ofImm (w.extractLsb' 26 6) (w.extractLsb' 21 5)
    (w.extractLsb' 16 5) (w.extractLsb' 0 16) := by
  simp [decodeFields, Fields.ofImm, BitVec.extractLsb'_extractLsb'_of_le]

/-! ### The row of a word (R87, R88) -/

/-- The rows of the opcode table as the opcode and funct fields select them (R87); each word has one. -/
inductive Row (w : Word) : Prop where
  | add (hop : w.extractLsb' 26 6 = 0x00#6) (hfn : w.extractLsb' 0 6 = 0x20#6)
  | sub (hop : w.extractLsb' 26 6 = 0x00#6) (hfn : w.extractLsb' 0 6 = 0x22#6)
  | addi (hop : w.extractLsb' 26 6 = 0x08#6)
  | beq (hop : w.extractLsb' 26 6 = 0x04#6)
  | sw (hop : w.extractLsb' 26 6 = 0x2B#6)
  | lw (hop : w.extractLsb' 26 6 = 0x23#6)
  | unrecognizedFunct (hop : w.extractLsb' 26 6 = 0x00#6) (hadd : w.extractLsb' 0 6 ≠ 0x20#6)
      (hsub : w.extractLsb' 0 6 ≠ 0x22#6)
  | unrecognizedOpcode (hop : w.extractLsb' 26 6 ∉ [0x00#6, 0x04#6, 0x08#6, 0x23#6, 0x2B#6])

theorem Row.total (w : Word) : Row w := by
  by_cases hop : w.extractLsb' 26 6 ∈ [0x00#6, 0x04#6, 0x08#6, 0x23#6, 0x2B#6]
  · simp only [List.mem_cons, List.not_mem_nil, or_false] at hop
    obtain hop | hop | hop | hop | hop := hop
    · by_cases hadd : w.extractLsb' 0 6 = 0x20#6
      · exact .add hop hadd
      · by_cases hsub : w.extractLsb' 0 6 = 0x22#6
        · exact .sub hop hsub
        · exact .unrecognizedFunct hop hadd hsub
    · exact .beq hop
    · exact .addi hop
    · exact .lw hop
    · exact .sw hop
  · exact .unrecognizedOpcode hop

/-- The mnemonic of a word by its opcode and, under opcode 0, its funct (R87). -/
theorem mnemonic_decode (w : Word) : (decode w).mnemonic =
    if w.extractLsb' 26 6 = 0x00#6 then
      if w.extractLsb' 0 6 = 0x20#6 then .ADD else if w.extractLsb' 0 6 = 0x22#6 then .SUB else .UNRECOGNIZED_FUNCT
    else if w.extractLsb' 26 6 = 0x08#6 then .ADDI
    else if w.extractLsb' 26 6 = 0x04#6 then .BEQ
    else if w.extractLsb' 26 6 = 0x2B#6 then .SW
    else if w.extractLsb' 26 6 = 0x23#6 then .LW
    else .UNRECOGNIZED_OPCODE := by
  cases Row.total w with
  | add hop hfn => simp [decode_add hop hfn, Instr.mnemonic, hop, hfn]
  | sub hop hfn => simp [decode_sub hop hfn, Instr.mnemonic, hop, hfn]
  | addi hop => simp [decode_addi hop, Instr.mnemonic, hop]
  | beq hop => simp [decode_beq hop, Instr.mnemonic, hop]
  | sw hop => simp [decode_sw hop, Instr.mnemonic, hop]
  | lw hop => simp [decode_lw hop, Instr.mnemonic, hop]
  | unrecognizedFunct hop hadd hsub =>
    simp [decode_unrecognizedFunct hop hadd hsub, Instr.mnemonic, hop, hadd, hsub]
  | unrecognizedOpcode hop =>
    rw [decode_unrecognizedOpcode hop]
    simp only [List.mem_cons, List.not_mem_nil, or_false, not_or] at hop
    simp [Instr.mnemonic, hop]

/-- Settles O4: each mask and match says what the dispatch asks of the fields, and of the rows under opcode 0 the one
that asks nothing of funct stands last in both. -/
theorem rowsSelectedByMatchAndMask : Obligations.RowsSelectedByMatchAndMask := by
  refine fun w => ⟨?_, mnemonic_decode w⟩
  rw [mnemonic_decode]
  simp only [select_add, select_sub, select_addi, select_beq, select_sw, select_lw, select_zero]
  by_cases hop : w.extractLsb' 26 6 = 0x00#6 <;> simp [hop]

/-! ### From an instruction to its word and back (R82, R88) -/

/-- The field set of an instruction comes back from its word. -/
theorem decodeFields_encode (i : Instr) : decodeFields (encode i) = i.fields := by
  cases i with
  | add rd rs rt sh => exact decodeFields_ofSix ..
  | sub rd rs rt sh => exact decodeFields_ofSix ..
  | addi rt rs imm => exact decodeFields_ofImm ..
  | beq rs rt imm => exact decodeFields_ofImm ..
  | sw rt imm rs => exact decodeFields_ofImm ..
  | lw rt imm rs => exact decodeFields_ofImm ..
  | unrecognizedFunct rs rt rd sh fn => exact decodeFields_ofSix ..
  | unrecognizedOpcode op rs rt rd sh fn => exact decodeFields_ofSix ..

/-- The dispatch finds the instruction again: a well-formed one of the unrecognised rows holds no code that an earlier
row takes. -/
theorem dispatch_fields {i : Instr} (h : i.wellFormed = true) : dispatch i.fields = i := by
  cases i with
  | add rd rs rt sh => rfl
  | sub rd rs rt sh => rfl
  | addi rt rs imm => rfl
  | beq rs rt imm => rfl
  | sw rt imm rs => rfl
  | lw rt imm rs => rfl
  | unrecognizedFunct rs rt rd sh fn =>
    have hfn : fn ≠ 0x20#6 ∧ fn ≠ 0x22#6 := by simpa [Instr.wellFormed, recognizedFuncts] using h
    simp [dispatch, Instr.fields, Fields.ofSix, hfn]
  | unrecognizedOpcode op rs rt rd sh fn =>
    have hop : op ≠ 0x00#6 ∧ op ≠ 0x04#6 ∧ op ≠ 0x08#6 ∧ op ≠ 0x23#6 ∧ op ≠ 0x2B#6 := by
      simpa [Instr.wellFormed, recognizedOpcodes] using h
    simp [dispatch, Instr.fields, Fields.ofSix, hop]

theorem decode_encode {i : Instr} (h : i.wellFormed = true) : decode (encode i) = i := by
  rw [decode, decodeFields_encode, dispatch_fields h]

/-- The decoder over bytes reads a word from its bytes in memory order and leaves what stands after them (R80). -/
theorem decodeBytes_bytesOfWord (w : Word) (rest : List Byte) :
    decodeBytes (bytesOfWord w ++ rest) = .ok (decode w, rest) := by
  simp [bytesOfWord, decodeBytes]

/-- Settles O2: the field set survives the word, the dispatch survives the field set, and the word its four bytes. -/
theorem decodeEncodeRoundTrip : Obligations.DecodeEncodeRoundTrip := by
  refine fun i hi => ⟨decode_encode hi, fun rest => ?_⟩
  rw [encodeBytes, decodeBytes_bytesOfWord, decode_encode hi]

/-! ### From a word to its instruction and back (R92, R93) -/

theorem wellFormed_decode (w : Word) : (decode w).wellFormed = true := by
  cases Row.total w with
  | add hop hfn => rw [decode_add hop hfn]; rfl
  | sub hop hfn => rw [decode_sub hop hfn]; rfl
  | addi hop => rw [decode_addi hop]; rfl
  | beq hop => rw [decode_beq hop]; rfl
  | sw hop => rw [decode_sw hop]; rfl
  | lw hop => rw [decode_lw hop]; rfl
  | unrecognizedFunct hop hadd hsub =>
    rw [decode_unrecognizedFunct hop hadd hsub]
    simp [Instr.wellFormed, recognizedFuncts, hadd, hsub]
  | unrecognizedOpcode hop =>
    rw [decode_unrecognizedOpcode hop]
    simpa [Instr.wellFormed, recognizedOpcodes] using hop

/-- The instruction of a word keeps every field of the word, those that no rule reads among them. -/
theorem fields_decode (w : Word) : (decode w).fields = decodeFields w := by
  cases Row.total w with
  | add hop hfn => rw [decode_add hop hfn, decodeFields_eq_ofSix, hop, hfn]; rfl
  | sub hop hfn => rw [decode_sub hop hfn, decodeFields_eq_ofSix, hop, hfn]; rfl
  | addi hop => rw [decode_addi hop, decodeFields_eq_ofImm, hop]; rfl
  | beq hop => rw [decode_beq hop, decodeFields_eq_ofImm, hop]; rfl
  | sw hop => rw [decode_sw hop, decodeFields_eq_ofImm, hop]; rfl
  | lw hop => rw [decode_lw hop, decodeFields_eq_ofImm, hop]; rfl
  | unrecognizedFunct hop hadd hsub =>
    rw [decode_unrecognizedFunct hop hadd hsub, decodeFields_eq_ofSix, hop]; rfl
  | unrecognizedOpcode hop => rw [decode_unrecognizedOpcode hop, decodeFields_eq_ofSix]; rfl

theorem encode_decode (w : Word) : encode (decode w) = w := by
  rw [encode, fields_decode, encode_decodeFields]

/-- Settles O3: the instruction of a word holds all its fields, and the six of them make up the word. -/
theorem encodeDecodeRoundTrip : Obligations.EncodeDecodeRoundTrip := fun w =>
  ⟨wellFormed_decode w, encode_decode w⟩

/-- Settles O5, by running the decoder on the nine words. -/
theorem specWordsDecode : Obligations.SpecWordsDecode := by
  unfold Obligations.SpecWordsDecode
  decide

/-! ### No word is refused (R92) -/

/-- Settles O9: HALTED and a fetch out of bounds have a next state, and EXECUTE answers one for every word. -/
theorem stepAlwaysAnswersNext : Obligations.StepAlwaysAnswersNext := Machine.step_total

end Sys2Proof

/-! The cycle (40_cycle.md): what one cycle counts and records, HALTED, the end of every run and the reason for it. -/

namespace Sys2Proof.Machine

/-! ### The cycle of a fetched word (R111, R118, R126, R127) -/

/-- A cycle that fetches a word runs the EXECUTE of its instruction at P + 4 and then retires. -/
theorem exec_of_fetches {s : State} {w : Word} (hf : s.fetches w) :
    ∃ u, exec (decode w) s.advancePc = .next u ∧ step s = .next (u.retire s.pc w) := by
  obtain ⟨hrun, hword⟩ := State.fetches_iff.1 hf
  obtain ⟨u, hu⟩ := exec_total (decode w) s.advancePc
  exact ⟨u, hu, step_of_fetch hrun hword hu⟩

theorem step_of_fetchesOutside {s : State} (hout : s.fetchesOutside) : step s = .next s.fetchHalt := by
  obtain ⟨hrun, hword⟩ := State.fetchesOutside_iff.1 hout
  exact step_of_fetch_outside hrun (State.memRead_eq_none.1 hword)

/-- Settles O6: the four bytes are the word that the cycle fetches, and what follows EXECUTE is `retire`. -/
theorem stepRunsDecodedInstruction : Obligations.StepRunsDecodedInstruction := by
  intro s b0 b1 b2 b3 i hrun hbudget hin h0 h1 h2 h3 hi
  obtain rfl : decode (wordOfBytes b0 b1 b2 b3) = i := by
    simpa [decodeBytes] using hi
  have hword : s.memRead s.pc.toNat = some (wordOfBytes b0 b1 b2 b3) :=
    State.memRead_eq_some.2 ⟨hin, by rw [h0, h1, h2, h3]⟩
  obtain ⟨u, hu, hstep⟩ := exec_of_fetches ⟨hrun, hbudget, hword⟩
  exact ⟨u, _, hu, hstep, rfl, rfl, rfl, rfl, rfl, rfl, State.memRead_congr rfl rfl _⟩

/-- Settles O10: the cycle retires, which forces register 0 before it records the registers. -/
theorem registerZeroForcedEveryCycle : Obligations.RegisterZeroForcedEveryCycle := by
  intro s w hf
  obtain ⟨u, hu, hstep⟩ := exec_of_fetches hf
  obtain ⟨-, htrace, -⟩ := exec_keeps hu
  exact ⟨_, _, hstep, u.reg_retire_zero s.pc w, congrArg _ htrace, rfl⟩

/-- The operands that R127 names for a word, its codes read off the word itself. -/
theorem operands_decode (w : Word) : (decode w).operands =
    match decode w with
    | .add rd rs rt _ => .registers rd rs rt
    | .sub rd rs rt _ => .registers rd rs rt
    | .addi rt rs imm => .immediate rt rs (imm.signExtend 32)
    | .beq rs rt imm => .branch rs rt (imm.signExtend 32)
    | .lw rt imm rs => .memory rt (imm.signExtend 32) rs
    | .sw rt imm rs => .memory rt (imm.signExtend 32) rs
    | .unrecognizedFunct _ _ _ _ _ => .codes (w.extractLsb' 26 6) (w.extractLsb' 0 6)
    | .unrecognizedOpcode _ _ _ _ _ _ => .codes (w.extractLsb' 26 6) (w.extractLsb' 0 6) := by
  cases Row.total w with
  | add hop hfn => rw [decode_add hop hfn]; rfl
  | sub hop hfn => rw [decode_sub hop hfn]; rfl
  | addi hop => rw [decode_addi hop]; rfl
  | beq hop => rw [decode_beq hop]; rfl
  | sw hop => rw [decode_sw hop]; rfl
  | lw hop => rw [decode_lw hop]; rfl
  | unrecognizedFunct hop hadd hsub =>
    rw [decode_unrecognizedFunct hop hadd hsub, hop]; rfl
  | unrecognizedOpcode hop => rw [decode_unrecognizedOpcode hop]; rfl

/-- The port shows the record that a step emits (10_state.md R38). -/
theorem obsPort_of_trace {s t : State} {r : Obs} (h : t.trace = r :: s.trace) : obsPort s t = some r := by
  simp [obsPort, h]

/-- Settles O14: the record is the one that `retire` reads off the state after EXECUTE. -/
theorem recordHoldsTheCycle : Obligations.RecordHoldsTheCycle := by
  intro s w hf
  obtain ⟨u, hu, hstep⟩ := exec_of_fetches hf
  obtain ⟨-, htrace, hparams, -⟩ := exec_keeps hu
  have hrecord : (u.retire s.pc w).trace = u.forceZero.countCycle.record s.pc w :: s.trace := congrArg _ htrace
  have hword : (u.forceZero.countCycle.memRead s.pc.toNat).isSome = true := by
    have hin := (State.memRead_eq_some.1 hf.2.2).1
    have hsize : u.forceZero.countCycle.params = s.params := hparams
    rw [State.memRead_eq, hsize, if_pos hin]
    rfl
  exact ⟨_, _, hstep, obsPort_of_trace hrecord, hrecord, rfl, rfl, rfl, rfl, State.memRead_congr rfl rfl _, hword,
    ⟨u, hu, rfl⟩, congrArg some (operands_decode w)⟩

/-! ### The count (R113, R120) -/

theorem State.fetchHalt_cycle (s : State) :
    s.fetchHalt.cycle = if Config.fetchHaltCounts then s.cycle + 1 else s.cycle := by
  unfold State.fetchHalt
  split <;> rfl

theorem State.fetchHalt_trace (s : State) :
    s.fetchHalt.trace = if Config.fetchHaltCounts then s.fetchRecord s.pc :: s.trace else s.trace := by
  unfold State.fetchHalt
  split <;> rfl

/-- Settles O8: `fetchHalt` changes only the running flag, the count and the records, the last two by
FETCH_HALT_COUNTS. -/
theorem fetchOutOfBoundsHalts : Obligations.FetchOutOfBoundsHalts := by
  intro s hout
  refine ⟨_, step_of_fetchesOutside hout, s.fetchHalt_running, s.fetchHalt_pc, State.reg_congr s.fetchHalt_x,
    fun a => by rw [s.fetchHalt_mem], s.fetchHalt_params, fun hcounts => ⟨?_, s.fetchRecord s.pc, ?_⟩,
    fun hcounts => ?_⟩
  · simp [s.fetchHalt_cycle, hcounts]
  · exact ⟨by simp [s.fetchHalt_trace, hcounts], rfl, rfl, rfl, rfl, s.fetchHalt_x.symm⟩
  · simp [s.fetchHalt_cycle, s.fetchHalt_trace, hcounts]

theorem retire_cycle_of_exec {s u : State} {i : Instr} (hu : exec i s.advancePc = .next u) (p w : Word) :
    (u.retire p w).cycle = s.cycle + 1 := by
  obtain ⟨hcycle, -⟩ := exec_keeps hu
  exact congrArg (· + 1) hcycle

/-- Settles O11: `retire` counts the cycle of a fetched word, `fetchHalt` that of a fetch out of bounds if it counts,
and HALTED stands still. -/
theorem cycleCountsCompletedCycles : Obligations.CycleCountsCompletedCycles := by
  refine fun s t h => ⟨fun w hf => ?_, fun hout => ?_, fun hhalt => ?_⟩
  · obtain ⟨u, hu, hstep⟩ := exec_of_fetches hf
    cases h.symm.trans hstep
    exact retire_cycle_of_exec hu s.pc w
  · cases h.symm.trans (step_of_fetchesOutside hout)
    exact s.fetchHalt_cycle
  · cases h.symm.trans (step_of_halted hhalt)
    rfl

/-! ### HALTED (R123) -/

/-- In HALTED no number of steps changes anything. -/
theorem core_run_of_halted {s : State} (hhalt : s.halted = true) (k : Nat) : Sys2Proof.core.run k s = .next s := by
  induction k with
  | zero => rfl
  | succ k ih => rw [core_run_next (step_of_halted hhalt), ih]

/-- Reset leaves HALTED if the budget admits a cycle. -/
theorem resetWith_not_halted {p : Params} (hbudget : 0 < p.maxCycles.toNat) :
    (State.resetWith p).halted = false :=
  (State.not_halted_iff _).2 ⟨rfl, hbudget⟩

/-- Settles O7: a step of HALTED is the identity, an edge without reset is a step, and one with reset is `resetWith`. -/
theorem haltedIsLeftOnlyByReset : Obligations.HaltedIsLeftOnlyByReset := by
  intro s
  refine ⟨s.halted_iff, fun hhalt => ⟨core_run_of_halted hhalt, fun image => ⟨?_, fun hbudget => ?_⟩⟩⟩
  · exact clockEdge_cycle (step_of_halted hhalt)
  · exact ⟨_, clockEdge_reset image _, resetWith_not_halted hbudget⟩

/-! ### Every run ends (R122) -/

theorem State.fetchHalt_halted (s : State) : s.fetchHalt.halted = true :=
  s.fetchHalt.halted_iff.2 (.inl s.fetchHalt_running)

/-- A cycle ends the run or takes one of the cycles that the budget has left, and it never passes the budget. -/
theorem step_spends_budget {s t : State} (hrun : s.halted = false) (h : step s = .next t) :
    (t.halted = true ∨ t.cycle.toNat = s.cycle.toNat + 1) ∧
      s.cycle.toNat ≤ t.cycle.toNat ∧ t.cycle.toNat ≤ s.params.maxCycles.toNat := by
  have hlt := (s.not_halted_iff.1 hrun).2
  have hsucc := toNat_cycle_succ hrun
  obtain ⟨hhalt, -⟩ | ⟨-, -, rfl⟩ | ⟨w, u, -, -, hu, rfl⟩ := step_cases h
  · simp [hrun] at hhalt
  · refine ⟨.inl s.fetchHalt_halted, ?_⟩
    obtain ⟨hcycle, -⟩ | ⟨hcycle, -⟩ := s.fetchHalt_counts <;> rw [hcycle] <;> omega
  · rw [retire_cycle_of_exec hu, hsucc]
    omega

/-- Settles O41, by induction on the number of steps: a cycle ends the run or leaves one cycle less in the budget. -/
theorem everyRunEnds : Obligations.EveryRunEnds := by
  intro s k hle hk
  induction k generalizing s with
  | zero => exact ⟨s, rfl, s.halted_iff.2 (.inr (by omega)), rfl, le_rfl, hle⟩
  | succ k ih =>
    cases hrun : s.halted with
    | true => exact ⟨s, core_run_of_halted hrun _, hrun, rfl, le_rfl, hle⟩
    | false =>
      obtain ⟨u, hu⟩ := step_total s
      obtain ⟨hparams, -⟩ := parametersAndRecordsPersist s u hu
      obtain ⟨hspent, hlow, hhigh⟩ := step_spends_budget hrun hu
      rw [core_run_next hu]
      obtain hhalt | hcycle := hspent
      · exact ⟨u, core_run_of_halted hhalt k, hhalt, hparams, hlow, hhigh⟩
      · obtain ⟨t, ht, hhalt, htparams, htlow, hthigh⟩ := ih u (by rw [hparams]; omega) (by rw [hparams]; omega)
        exact ⟨t, ht, hhalt, htparams.trans hparams, by omega, by rwa [hparams] at hthigh⟩

/-! ### The stop reason (R124) -/

theorem State.stopReason_of_halted {s : State} (h : s.halted = true) : s.stopReason =
    if s.running then some .budgetExhausted
    else if s.trace.head?.map (·.event) = some .unrecognizedOpcode then some .unrecognizedOpcode
    else some .fetchOutOfBounds := if_pos h

theorem State.fetchesOutside_not_fetches {s : State} (hout : s.fetchesOutside) (w : Word) :
    ¬ s.fetches w := fun hf => by
  have hnone := (State.fetchesOutside_iff.1 hout).2
  rw [hf.2.2] at hnone
  cases hnone

/-- After a cycle that started in a state of the invariant, the newest record has the tag of an unrecognised opcode
exactly if the cycle ran one: a fetch that halts leaves an older record newest or one with its own tag. -/
theorem lastEvent_unrecognizedOpcode_iff {s t : State} (hs : s.Inv) (hrun : s.halted = false) (h : step s = .next t) :
    t.trace.head?.map (·.event) = some .unrecognizedOpcode ↔
      ∃ w, s.fetches w ∧ (decode w).mnemonic = .UNRECOGNIZED_OPCODE := by
  obtain ⟨hhalt, -⟩ | ⟨-, hout, rfl⟩ | ⟨w, u, -, hf, hu, rfl⟩ := step_cases h
  · simp [hrun] at hhalt
  · have hout := State.fetchesOutside_iff.2 ⟨hrun, State.memRead_eq_none.2 hout⟩
    have hnone : s.fetchHalt.trace.head?.map (·.event) ≠ some .unrecognizedOpcode := by
      rw [s.fetchHalt_trace]
      split
      · simp [State.fetchRecord]
      · intro hlast
        obtain ⟨r, hr, hevent⟩ := Option.map_eq_some_iff.1 hlast
        exact (hs.no_halt_seen hout.1 r (List.mem_of_mem_head? hr)).1 hevent
    exact iff_of_false hnone fun ⟨w, hf, _⟩ => State.fetchesOutside_not_fetches hout w hf
  · have hlast : (u.retire s.pc w).trace.head?.map (·.event) = some u.event := rfl
    rw [hlast, Option.some_inj, exec_event_unrecognizedOpcode_iff hu]
    simp [State.fetches_iff, hrun, hf]

/-- Settles O42: the running flag tells the budget from the two halts, and the newest record tells the halts apart. -/
theorem stopReasonIsTheCause : Obligations.StopReasonIsTheCause := by
  intro s t hs hrun h hhalt
  have hstops := step_stops_iff h (s.not_halted_iff.1 hrun).1
  have hlast := lastEvent_unrecognizedOpcode_iff hs hrun h
  rw [State.stopReason_of_halted hhalt]
  cases hrunning : t.running with
  | true =>
    have hno : ¬ (s.fetchesOutside ∨ ∃ w, s.fetches w ∧ (decode w).mnemonic = .UNRECOGNIZED_OPCODE) := by
      simp [← hstops, hrunning]
    obtain ⟨hinside, hknown⟩ := not_or.1 hno
    have hreached : t.params.maxCycles.toNat ≤ t.cycle.toNat := by simpa [hrunning] using t.halted_iff.1 hhalt
    have hbudget := Nat.le_antisymm (stepKeepsInvariant s t hs h).cycle_le hreached
    exact ⟨by simpa using hknown, by simpa using hinside, by simpa using BitVec.eq_of_toNat_eq hbudget⟩
  | false =>
    by_cases hopcode : ∃ w, s.fetches w ∧ (decode w).mnemonic = .UNRECOGNIZED_OPCODE
    · have ⟨w, hf, _⟩ := hopcode
      have hinside : ¬ s.fetchesOutside := fun hout => State.fetchesOutside_not_fetches hout w hf
      rw [if_pos (hlast.2 hopcode)]
      exact ⟨iff_of_true rfl hopcode, iff_of_false (by simp) hinside, by simp⟩
    · have hout : s.fetchesOutside := (hstops.1 hrunning).resolve_right hopcode
      rw [if_neg (mt hlast.1 hopcode)]
      exact ⟨iff_of_false (by simp) hopcode, iff_of_true rfl hout, by simp⟩

end Sys2Proof.Machine

/-! The flat machine (40_cycle.md R111): the view of a state commutes with every part of the cycle, so that both
transcriptions of the rules take the same step. -/

namespace Sys2Proof.Flat

open Machine

/-! ### Words as numbers (00_scope.md R14, R15) -/

/-- A slice of a word's number is the number of the same bits of the word. -/
theorem slice_toNat (w : Word) (hi lo : Nat) : slice w.toNat hi lo = (w.extractLsb' lo (hi + 1 - lo)).toNat := by
  rw [slice, BitVec.extractLsb'_toNat, Nat.shiftRight_eq_div_pow]

theorem sint_toNat (v : Word) : sint v.toNat = v.toInt := by
  rw [sint, BitVec.toInt_eq_toNat_cond]
  omega

theorem simm_toNat (v : Imm) : simm v.toNat = v.toInt := by
  rw [simm, BitVec.toInt_eq_toNat_cond]
  omega

theorem wrap_eq_toNat (z : Int) : wrap z = (BitVec.ofInt 32 z).toNat := (BitVec.toNat_ofInt z).symm

theorem wrap_add_int (a : Word) (z : Int) : wrap ((a.toNat : Int) + z) = (a + BitVec.ofInt 32 z).toNat := by
  simp [wrap_eq_toNat, BitVec.ofInt_add]

theorem wrap_add (a b : Word) : wrap ((a.toNat : Int) + b.toNat) = (a + b).toNat := by
  simp [wrap_add_int]

theorem wrap_sub (a b : Word) : wrap ((a.toNat : Int) - b.toNat) = (a - b).toNat := by
  simp [Int.sub_eq_add_neg, wrap_add_int, BitVec.ofInt_neg, BitVec.sub_eq_add_neg]

theorem toNat_append_eq_add {m n : Nat} (x : BitVec m) (y : BitVec n) :
    (x ++ y).toNat = x.toNat * 2 ^ n + y.toNat := by
  rw [BitVec.toNat_append, ← Nat.shiftLeft_add_eq_or_of_lt y.isLt, Nat.shiftLeft_eq]

theorem toNat_wordOfBytes (b0 b1 b2 b3 : Byte) : (wordOfBytes b0 b1 b2 b3).toNat =
    b0.toNat * 2 ^ 24 + b1.toNat * 2 ^ 16 + b2.toNat * 2 ^ 8 + b3.toNat := by
  simp only [wordOfBytes, toNat_append_eq_add]
  omega

/-! ### The view of a state (10_state.md R20) -/

@[simp] theorem view_mem (s : State) (a : Nat) : (view s).mem a = (s.mem.read a).toNat := rfl
@[simp] theorem view_pc (s : State) : (view s).pc = s.pc.toNat := rfl
@[simp] theorem view_cycle (s : State) : (view s).cycle = s.cycle.toNat := rfl
@[simp] theorem view_running (s : State) : (view s).running = s.running := rfl

/-- The view of a register. -/
@[simp] theorem view_x (s : State) (r : RegIdx) : (view s).x r.toNat = (s.reg r).toNat := by
  simp [view, State.reg, Vector.getElem?_eq_getElem r.isLt]

/-- A register write in the view. -/
theorem view_setReg (s : State) (r : RegIdx) (v : Word) :
    view (s.setReg r v) = { view s with x := setX (view s).x r.toNat v.toNat } := by
  have hx : (view (s.setReg r v)).x = setX (view s).x r.toNat v.toNat := by
    funext q
    simp only [view, State.setReg, setX, Vector.getElem?_set]
    by_cases hq : q = r.toNat
    · simp [hq]
    · simp [hq, Ne.symm hq]
  rw [← hx]
  rfl

/-- The word that the view holds at `a` is the one MemRead gives. -/
theorem wordAt_view {s : State} {a : Nat} {w : Word} (h : s.memRead a = some w) :
    wordAt (view s).mem a = w.toNat := by
  obtain ⟨-, rfl⟩ := State.memRead_eq_some.1 h
  rw [toNat_wordOfBytes]
  rfl

/-- A word store in the view. -/
theorem view_writeWord {s : State} (hwf : s.mem.wf) (a : Nat) (v : Word) :
    view { s with mem := s.mem.writeWord a v } = { view s with mem := storeWord (view s).mem a v.toNat } := by
  have hmem : (view { s with mem := s.mem.writeWord a v }).mem = storeWord (view s).mem a v.toNat := by
    funext b
    simp only [view_mem, Memory.read_writeWord hwf, storeWord, slice_toNat, apply_ite BitVec.toNat]
    rfl
  rw [← hmem]
  rfl

theorem view_advancePc (s : State) : view s.advancePc = { view s with pc := wrap ((s.pc.toNat : Int) + 4) } := by
  rw [wrap_add_int]
  rfl

/-! ### EXECUTE, row by row (30_encoding.md R87) -/

/-- What EXECUTE reads off a word's number: its opcode and funct, its register fields and its signed immediate. -/
theorem slices_toNat (w : Word) :
    slice w.toNat 31 26 = (w.extractLsb' 26 6).toNat ∧ slice w.toNat 5 0 = (w.extractLsb' 0 6).toNat ∧
      slice w.toNat 25 21 = (regField w 21).toNat ∧ slice w.toNat 20 16 = (regField w 16).toNat ∧
      slice w.toNat 15 11 = (regField w 11).toNat ∧ simm (slice w.toNat 15 0) = (w.extractLsb' 0 16).toInt :=
  ⟨slice_toNat w 31 26, slice_toNat w 5 0, slice_toNat w 25 21, slice_toNat w 20 16, slice_toNat w 15 11,
    (congrArg simm (slice_toNat w 15 0)).trans (simm_toNat _)⟩

/-- The address of R56: the signed sum of a register and an immediate. -/
def signedAddress (w : Word) (f : Tuple) : Int := sint (f.x (regField w 21).toNat) + (w.extractLsb' 0 16).toInt

section
variable {w : Word} (n : Nat) (f : Tuple)

theorem execute_add (hop : w.extractLsb' 26 6 = 0x00#6) (hfn : w.extractLsb' 0 6 = 0x20#6) :
    execute n w.toNat f = { f with x := setX f.x (regField w 11).toNat (wrap
      ((f.x (regField w 21).toNat : Int) + f.x (regField w 16).toNat)) } := by
  simp only [execute, slices_toNat, hop, hfn]
  rfl

theorem execute_sub (hop : w.extractLsb' 26 6 = 0x00#6) (hfn : w.extractLsb' 0 6 = 0x22#6) :
    execute n w.toNat f = { f with x := setX f.x (regField w 11).toNat (wrap
      ((f.x (regField w 21).toNat : Int) - f.x (regField w 16).toNat)) } := by
  simp only [execute, slices_toNat, hop, hfn]
  rfl

theorem execute_addi (hop : w.extractLsb' 26 6 = 0x08#6) :
    execute n w.toNat f = { f with x := setX f.x (regField w 16).toNat (wrap
      ((f.x (regField w 21).toNat : Int) + (w.extractLsb' 0 16).toInt)) } := by
  simp only [execute, slices_toNat, hop]
  rfl

theorem execute_beq (hop : w.extractLsb' 26 6 = 0x04#6) :
    execute n w.toNat f = if f.x (regField w 21).toNat = f.x (regField w 16).toNat then
      { f with pc := wrap ((f.pc : Int) + 4 * (w.extractLsb' 0 16).toInt) } else f := by
  simp only [execute, slices_toNat, hop]
  rfl

theorem execute_sw (hop : w.extractLsb' 26 6 = 0x2B#6) :
    execute n w.toNat f = if 0 ≤ signedAddress w f ∧ signedAddress w f + 4 ≤ (n : Int) then
      { f with mem := storeWord f.mem (signedAddress w f).toNat (f.x (regField w 16).toNat) } else f := by
  simp only [execute, slices_toNat, hop]
  rfl

theorem execute_lw (hop : w.extractLsb' 26 6 = 0x23#6) :
    execute n w.toNat f = if 0 ≤ signedAddress w f ∧ signedAddress w f + 4 ≤ (n : Int) then
      { f with x := setX f.x (regField w 16).toNat (wordAt f.mem (signedAddress w f).toNat) } else f := by
  simp only [execute, slices_toNat, hop]
  rfl

theorem execute_unrecognizedFunct (hop : w.extractLsb' 26 6 = 0x00#6) (hadd : w.extractLsb' 0 6 ≠ 0x20#6)
    (hsub : w.extractLsb' 0 6 ≠ 0x22#6) : execute n w.toNat f = f := by
  rw [← BitVec.toNat_inj.ne] at hadd hsub
  simp only [execute, slices_toNat, hop]
  exact (if_neg hadd).trans (if_neg hsub)

theorem execute_unrecognizedOpcode (hop : w.extractLsb' 26 6 ∉ [0x00#6, 0x04#6, 0x08#6, 0x23#6, 0x2B#6]) :
    execute n w.toNat f = { f with running := false } := by
  simp only [List.mem_cons, List.not_mem_nil, or_false, not_or, ← BitVec.toNat_inj] at hop
  obtain ⟨h0, h4, h8, h23, h2B⟩ := hop
  simp only [execute, slices_toNat]
  exact (if_neg h0).trans <| (if_neg h8).trans <| (if_neg h4).trans <| (if_neg h2B).trans (if_neg h23)

end

/-! ### The parts of a cycle commute with the view -/

/-- The signed address test and the signed address are those of the model (20_memory.md R56). -/
theorem signedAddress_view {s : State} (hp : s.params.valid) (w : Word) :
    ((0 ≤ signedAddress w (view s) ∧ signedAddress w (view s) + 4 ≤ (s.params.memSize : Int)) ↔
      s.effectiveAddress (regField w 21) (w.extractLsb' 0 16) + 3 < s.params.memSize) ∧
    (s.effectiveAddress (regField w 21) (w.extractLsb' 0 16) + 3 < s.params.memSize →
      (signedAddress w (view s)).toNat = s.effectiveAddress (regField w 21) (w.extractLsb' 0 16)) := by
  obtain ⟨hinside, haddr⟩ := signedAndUnsignedAddressesAgree s (regField w 21) (w.extractLsb' 0 16) hp
  rw [signedAddress, view_x, sint_toNat]
  refine ⟨?_, fun hin => ?_⟩
  · rw [hinside]
    omega
  · rw [← haddr hin]
    rfl

/-- EXECUTE of both machines: row by row, what the model's instruction does to a state is what the flat machine does to
its view. -/
theorem execute_view {s t : State} {w : Word} (hp : s.params.valid) (hwf : s.mem.wf)
    (h : exec (decode w) s = .next t) : execute s.params.memSize w.toNat (view s) = view t := by
  obtain ⟨hinside, haddr⟩ := signedAddress_view hp w
  cases Row.total w with
  | add hop hfn =>
    rw [decode_add hop hfn] at h
    cases h
    rw [execute_add _ _ hop hfn, view_x, view_x, wrap_add]
    exact (view_setReg ..).symm
  | sub hop hfn =>
    rw [decode_sub hop hfn] at h
    cases h
    rw [execute_sub _ _ hop hfn, view_x, view_x, wrap_sub]
    exact (view_setReg ..).symm
  | addi hop =>
    rw [decode_addi hop] at h
    cases h
    rw [execute_addi _ _ hop, view_x, wrap_add_int, ← sext32_eq_ofInt]
    exact (view_setReg ..).symm
  | beq hop =>
    rw [decode_beq hop, exec_beq] at h
    cases h
    rw [execute_beq _ _ hop, view_x, view_x, view_pc, wrap_add_int, ← branchOffset_eq_ofInt]
    simp only [BitVec.toNat_inj]
    split <;> rfl
  | sw hop =>
    rw [decode_sw hop, exec_sw] at h
    rw [execute_sw _ _ hop]
    split at h <;> rename_i hin <;> cases h
    · rw [if_pos (hinside.2 hin), haddr hin, view_x]
      exact (view_writeWord hwf _ _).symm
    · rw [if_neg (mt hinside.1 hin)]
      rfl
  | lw hop =>
    rw [decode_lw hop, exec_lw] at h
    rw [execute_lw _ _ hop]
    split at h <;> rename_i hin <;> cases h
    · rw [if_pos (hinside.2 hin), haddr hin, wordAt_view (State.memRead_eq_some.2 ⟨hin, rfl⟩)]
      exact (view_setReg ..).symm
    · rw [if_neg (mt hinside.1 hin)]
      rfl
  | unrecognizedFunct hop hadd hsub =>
    rw [decode_unrecognizedFunct hop hadd hsub] at h
    cases h
    exact execute_unrecognizedFunct _ _ hop hadd hsub
  | unrecognizedOpcode hop =>
    rw [decode_unrecognizedOpcode hop] at h
    cases h
    exact execute_unrecognizedOpcode _ _ hop

/-- The fetch that halts, in the view. -/
theorem view_fetchHalt {s : State} (hrun : s.halted = false) : view s.fetchHalt = { view s with
    running := false
    cycle := if Config.fetchHaltCounts then (view s).cycle + 1 else (view s).cycle } := by
  have hcycle : s.fetchHalt.cycle.toNat = if Config.fetchHaltCounts then s.cycle.toNat + 1 else s.cycle.toNat := by
    rw [s.fetchHalt_cycle, apply_ite BitVec.toNat, toNat_cycle_succ hrun]
  simp only [view, s.fetchHalt_mem, s.fetchHalt_x, s.fetchHalt_pc, s.fetchHalt_running, hcycle]

/-- The end of a completed cycle, in the view. -/
theorem view_retire {u : State} (hcycle : (u.cycle + 1).toNat = u.cycle.toNat + 1) (p w : Word) :
    view (u.retire p w) = { view u with x := setX (view u).x 0 0, cycle := (view u).cycle + 1 } := by
  have hview : view (u.retire p w) = { view u.forceZero with cycle := (u.cycle + 1).toNat } := rfl
  have hzero : view u.forceZero = { view u with x := setX (view u).x 0 0 } := view_setReg u 0 0
  rw [hview, hzero, hcycle]
  rfl

/-! ### The step -/

section
variable {n m : Nat} {b : Bool} {f : Tuple}

theorem step_of_halted (h : f.running = false ∨ m ≤ f.cycle) : step n m b f = f := if_pos h

theorem step_of_fetch_outside (h : ¬ (f.running = false ∨ m ≤ f.cycle)) (hout : n ≤ f.pc + 3) :
    step n m b f = { f with running := false, cycle := if b then f.cycle + 1 else f.cycle } :=
  (if_neg h).trans (if_pos hout)

theorem step_of_fetch (h : ¬ (f.running = false ∨ m ≤ f.cycle)) (hin : ¬ n ≤ f.pc + 3) {g : Tuple}
    (hg : execute n (wordAt f.mem f.pc) { f with pc := wrap ((f.pc : Int) + 4) } = g) :
    step n m b f = { g with x := setX g.x 0 0, cycle := g.cycle + 1 } := by
  subst hg
  exact (if_neg h).trans (if_neg hin)

end

/-- Settles O43: both machines agree on HALTED and on the bounds of the fetch, and each part of the cycle commutes with
the view. -/
theorem stepRefinesFlatMachine : Obligations.StepRefinesFlatMachine := by
  intro s hs
  obtain ⟨t, ht⟩ := step_total s
  refine ⟨t, ht, ?_⟩
  obtain ⟨hhalt, rfl⟩ | ⟨hrun, hout, rfl⟩ | ⟨w, u, hrun, hf, hu, rfl⟩ := step_cases ht
  · exact (step_of_halted ((State.halted_iff _).1 hhalt)).symm
  · have hgo := mt s.halted_iff.2 (Bool.eq_false_iff.1 hrun)
    rw [view_fetchHalt hrun, step_of_fetch_outside hgo hout]
  · have hgo := mt s.halted_iff.2 (Bool.eq_false_iff.1 hrun)
    have hin := (State.memRead_eq_some.1 hf).1
    have hcycle : u.cycle = s.cycle := (exec_keeps hu).1
    have hexec : execute s.params.memSize (wordAt (view s).mem s.pc.toNat)
        { view s with pc := wrap ((s.pc.toNat : Int) + 4) } = view u := by
      rw [wordAt_view hf, ← view_advancePc]
      exact execute_view hs.params_valid hs.mem_wf hu
    rw [view_retire (by rw [hcycle]; exact toNat_cycle_succ hrun)]
    exact (step_of_fetch hgo (Nat.not_le.2 hin) hexec).symm

end Sys2Proof.Flat

/-! Arithmetic (41_arith.md): ADD, SUB and ADDI each write one word to one register and change nothing else, at EXECUTE
and over the whole cycle, and the word wraps modulo 2^32. -/

namespace Sys2Proof.Machine

/-! ### One register written (R140 to R142) -/

/-- What ADD, SUB and ADDI leave: the word `v` in the destination `d`, and no condition to report. -/
abbrev State.writesResult (s : State) (d : RegIdx) (v : Word) : State := { s.setReg d v with event := .none }

section
variable {s : State} {d : RegIdx} {v : Word}

/-- An EXECUTE that writes a result changes its destination alone. -/
theorem exec_writesResult {i : Instr} (h : exec i s = .next (s.writesResult d v)) : ∃ t, exec i s = .next t ∧
    t.reg d = v ∧ sameRegsBut d s t ∧ sameMemory s t ∧ t.pc = s.pc ∧ t.running = s.running ∧ sameLoop s t ∧
    t.event = .none :=
  ⟨_, h, s.reg_setReg_self d v, fun q hq => s.reg_setReg_ne d q v hq, fun _ => rfl, rfl, rfl, ⟨rfl, rfl, rfl⟩, rfl⟩

/-- A register other than 0 after the cycle of an EXECUTE that writes a result. -/
theorem reg_retire_writesResult (p w : Word) {q : RegIdx} (hq : q ≠ 0) :
    ((s.advancePc.writesResult d v).retire p w).reg q = if q = d then v else s.reg q := by
  rw [State.reg_retire, if_neg hq]
  exact s.advancePc.reg_setReg d q v

/-- The cycle of an EXECUTE that writes a result completes at P + 4 and changes the destination alone, register 0 aside,
which the end of the cycle forces to zero. -/
theorem step_writesResult {w : Word} (hf : s.fetches w)
    (h : exec (decode w) s.advancePc = .next (s.advancePc.writesResult d v)) : ∃ t, step s = .next t ∧
    s.completes w .none t ∧ sameMemory s t ∧ t.pc = s.pc + 4 ∧ t.running = true ∧
    ∀ q, q ≠ 0 → t.reg q = if q = d then v else s.reg q := by
  obtain ⟨hrun, hword⟩ := State.fetches_iff.1 hf
  have hcompletes : s.completes w .none ((s.advancePc.writesResult d v).retire s.pc w) :=
    ⟨rfl, rfl, rfl, State.reg_retire_zero _ _ _, _, rfl, rfl, rfl, rfl⟩
  exact ⟨_, step_of_fetch hrun hword h, hcompletes, fun _ => rfl, rfl, hf.1, fun _ => reg_retire_writesResult s.pc w⟩

end

/-- Settles O15: match and mask select the row of ADD, whose EXECUTE writes the sum. -/
theorem addWritesSum : Obligations.AddWritesSum := by
  refine ⟨fun rd rs rt shamt s => exec_writesResult (exec_add s rd rs rt shamt), fun s w hf hw => ?_⟩
  obtain ⟨hop, hfn⟩ := (select_add w).1 hw
  exact step_writesResult hf (by rw [decode_add hop hfn]; rfl)

/-- Settles O16: match and mask select the row of SUB, whose EXECUTE writes the difference. -/
theorem subWritesDifference : Obligations.SubWritesDifference := by
  refine ⟨fun rd rs rt shamt s => exec_writesResult (exec_sub s rd rs rt shamt), fun s w hf hw => ?_⟩
  obtain ⟨hop, hfn⟩ := (select_sub w).1 hw
  exact step_writesResult hf (by rw [decode_sub hop hfn]; rfl)

/-- EXECUTE of ADDI adds the integer that the immediate denotes. -/
theorem exec_addi_ofInt (s : State) (rt rs : RegIdx) (imm : Imm) :
    exec (.addi rt rs imm) s = .next (s.writesResult rt (s.reg rs + BitVec.ofInt 32 imm.toInt)) := by
  rw [exec_addi, sext32_eq_ofInt]

/-- Settles O17: match and mask select the row of ADDI, whose EXECUTE writes the sum with the signed immediate. -/
theorem addiAddsSignedImmediate : Obligations.AddiAddsSignedImmediate := by
  refine ⟨fun rt rs imm s => exec_writesResult (exec_addi_ofInt s rt rs imm), fun s w hf hw => ?_⟩
  have hdecode := decode_addi ((select_addi w).1 hw)
  exact step_writesResult hf (by rw [hdecode]; exact exec_addi_ofInt s.advancePc _ _ _)

/-! ### Wraparound (R143) -/

/-- A difference read unsigned: the borrow is one 2^32. -/
theorem toNat_word_sub (a b : Word) : (a - b).toNat = (a.toNat + 2 ^ 32 - b.toNat) % 2 ^ 32 := by
  have hb := b.isLt
  rw [BitVec.toNat_sub]
  congr 1
  omega

/-- A sum with a sign-extended immediate, read signed. -/
theorem toInt_add_sext32 (a : Word) (imm : Imm) : (a + sext32 imm).toInt = (a.toInt + imm.toInt).bmod (2 ^ 32) := by
  rw [BitVec.toInt_add, sext32, BitVec.toInt_signExtend_of_le (by decide)]

/-- Settles O18: each of the three instructions writes the result of a 32-bit operation, without a tag and without
touching the running flag. -/
theorem arithmeticWrapsSilently : Obligations.ArithmeticWrapsSilently := by
  refine fun rd rs rt shamt imm s => ⟨?_, ?_, ?_⟩
  · obtain ⟨t, h, hrd, -, -, -, hrunning, -, hevent⟩ := exec_writesResult (exec_add s rd rs rt shamt)
    exact ⟨t, h, hrunning, hevent, by rw [hrd, BitVec.toNat_add], by rw [hrd, BitVec.toInt_add]⟩
  · obtain ⟨t, h, hrd, -, -, -, hrunning, -, hevent⟩ := exec_writesResult (exec_sub s rd rs rt shamt)
    exact ⟨t, h, hrunning, hevent, by rw [hrd, toNat_word_sub], by rw [hrd, BitVec.toInt_sub]⟩
  · obtain ⟨t, h, hrt, -, -, -, hrunning, -, hevent⟩ := exec_writesResult (exec_addi s rs rt imm)
    exact ⟨t, h, hrunning, hevent, by rw [hrt, toInt_add_sext32]⟩

end Sys2Proof.Machine

/-! Branch (42_branch.md): BEQ moves pc and nothing else, no other instruction moves it past P + 4, and the next cycle
fetches where pc stands. -/

namespace Sys2Proof.Machine

/-! ### BEQ moves pc alone (R150, R151) -/

/-- Where pc stands after EXECUTE of BEQ (R150, R151): at the target if the registers are equal, where it was if not. -/
def State.branchPc (s : State) (rs rt : RegIdx) (imm : Imm) : Word :=
  if s.reg rs = s.reg rt then s.pc + BitVec.ofInt 32 (4 * imm.toInt) else s.pc

/-- What a BEQ leaves: pc at `p`, and no condition to report. -/
abbrev State.branchedTo (s : State) (p : Word) : State := { s.setPc p with event := .none }

theorem exec_beq_branchPc (s : State) (rs rt : RegIdx) (imm : Imm) :
    exec (.beq rs rt imm) s = .next (s.branchedTo (s.branchPc rs rt imm)) := by
  rw [exec_beq, branchOffset_eq_ofInt]
  rfl

/-- The cycle of a BEQ at P branches from P + 4 and retires. -/
theorem step_beq {s : State} {w : Word} {rs rt : RegIdx} {imm : Imm} (hf : s.fetches w)
    (hw : decode w = .beq rs rt imm) :
    step s = .next ((s.advancePc.branchedTo (s.advancePc.branchPc rs rt imm)).retire s.pc w) := by
  obtain ⟨hrun, hword⟩ := State.fetches_iff.1 hf
  exact step_of_fetch hrun hword (by rw [hw]; exact exec_beq_branchPc _ _ _ _)

/-- Settles O19: match and mask select the row of BEQ, whose EXECUTE moves pc alone; a target outside memory is found
by the fetch of the next cycle. -/
theorem beqBranchesIfEqual : Obligations.BeqBranchesIfEqual := by
  refine ⟨fun rs rt imm s => ?_, fun s w hf hw => ?_⟩
  · exact ⟨_, exec_beq_branchPc s rs rt imm, rfl, fun _ => rfl, fun _ => rfl, rfl, ⟨rfl, rfl, rfl⟩, rfl⟩
  · refine ⟨_, step_beq hf (decode_beq ((select_beq w).1 hw)), ?completes, fun _ => rfl, hf.1, fun q hq => ?regs, rfl,
      fun hout => ⟨_, step_of_fetchesOutside hout, State.fetchHalt_running _⟩⟩
    case completes => exact ⟨rfl, rfl, rfl, State.reg_retire_zero _ _ _, _, rfl, rfl, rfl, rfl⟩
    case regs => rw [State.reg_retire, if_neg hq]; rfl

/-! ### No other instruction moves pc (R154) -/

theorem exec_keeps_pc {i : Instr} {s t : State} (h : exec i s = .next t) (hi : i.mnemonic ≠ .BEQ) : t.pc = s.pc := by
  cases i with
  | add rd rs rt sh => cases h; rfl
  | sub rd rs rt sh => cases h; rfl
  | addi rt rs imm => cases h; rfl
  | beq rs rt imm => exact absurd rfl hi
  | sw rt imm rs => rw [exec_sw] at h; split at h <;> cases h <;> rfl
  | lw rt imm rs => rw [exec_lw] at h; split at h <;> cases h <;> rfl
  | unrecognizedFunct rs rt rd sh fn => cases h; rfl
  | unrecognizedOpcode op rs rt rd sh fn => cases h; rfl

/-- Settles O20: EXECUTE keeps the advanced pc, and only an unrecognised opcode stops the machine. -/
theorem onlyBeqTransfersControl : Obligations.OnlyBeqTransfersControl := by
  intro s w hf hne
  obtain ⟨u, hu, hstep⟩ := exec_of_fetches hf
  have hrunning : u.running = true ↔ (decode w).mnemonic ≠ .UNRECOGNIZED_OPCODE := by
    rw [← Bool.not_eq_false, ne_eq, exec_stops_iff hu hf.1]
  exact ⟨_, hstep, exec_keeps_pc hu hne, hrunning⟩

/-! ### No delay slot (R152) -/

/-- Settles O21: the next cycle records the address it fetched from, and that is where the branch left pc. -/
theorem branchHasNoDelaySlot : Obligations.BranchHasNoDelaySlot := by
  intro s t w v rs rt imm hf hw h hv
  cases h.symm.trans (step_beq hf hw)
  obtain ⟨u, r, hu, htrace, hword, hpc⟩ := step_of_fetches hv
  exact ⟨u, r, hu, htrace, hword, hpc⟩

end Sys2Proof.Machine

/-! Load and store (43_loadstore.md): an SW in bounds puts a register's word in memory and an LW in bounds brings a
word of memory back; out of bounds each reports its condition and changes nothing. -/

namespace Sys2Proof.Machine

/-! ### Address and cycle shared by SW and LW (R160) -/

theorem State.effectiveAddress_eq_ofInt (s : State) (rs : RegIdx) (imm : Imm) :
    s.effectiveAddress rs imm = (s.reg rs + BitVec.ofInt 32 imm.toInt).toNat := by
  rw [State.effectiveAddress, sext32_eq_ofInt]

/-- What an access out of bounds leaves: nothing changed, and the condition `e` to report. -/
abbrev State.reports (s : State) (e : Event) : State := { s with event := e }

/-- The cycle of an EXECUTE that writes no register completes with the tag of that EXECUTE and keeps every register,
register 0 aside, which the end of the cycle forces to zero. -/
theorem step_of_exec_sameRegs {s u : State} {w : Word} (hf : s.fetches w)
    (hu : exec (decode w) s.advancePc = .next u) (hregs : sameRegs s u) : step s = .next (u.retire s.pc w) ∧
    s.completes w u.event (u.retire s.pc w) ∧ ∀ q, q ≠ 0 → (u.retire s.pc w).reg q = s.reg q := by
  obtain ⟨hrun, hword⟩ := State.fetches_iff.1 hf
  obtain ⟨hcycle, htrace, hparams, -⟩ := exec_keeps hu
  refine ⟨step_of_fetch hrun hword hu, ?completes, fun q hq => ?reg⟩
  case completes =>
    exact ⟨congrArg (· + 1) hcycle, hparams, rfl, u.reg_retire_zero s.pc w, _, congrArg _ htrace, rfl, rfl, rfl⟩
  case reg => rw [State.reg_retire, if_neg hq, hregs]

/-! ### SW (R161) -/

/-- What an SW in bounds leaves: the word `v` at `a`, and no condition to report. -/
abbrev State.stored (s : State) (a : Nat) (v : Word) : State := { s with mem := s.mem.writeWord a v, event := .none }

section
variable {s : State} {rt rs : RegIdx} {imm : Imm}

theorem exec_sw_inBounds (hin : s.effectiveAddress rs imm + 3 < s.params.memSize) :
    exec (.sw rt imm rs) s = .next (s.stored (s.effectiveAddress rs imm) (s.reg rt)) := by
  rw [exec_sw, if_pos hin]

theorem exec_sw_outOfBounds (hout : s.params.memSize ≤ s.effectiveAddress rs imm + 3) :
    exec (.sw rt imm rs) s = .next (s.reports .storeOutOfBounds) := by
  rw [exec_sw, if_neg (by omega)]

end

/-- The four bytes of a word written, the lowest address most significant (20_memory.md R51). -/
theorem Memory.read_writeWord_bytes {m : Memory} (hwf : m.wf) (a : Nat) (v : Word) :
    (m.writeWord a v).read a = v.extractLsb' 24 8 ∧ (m.writeWord a v).read (a + 1) = v.extractLsb' 16 8 ∧
      (m.writeWord a v).read (a + 2) = v.extractLsb' 8 8 ∧ (m.writeWord a v).read (a + 3) = v.extractLsb' 0 8 := by
  simp [Memory.read_writeWord hwf, byteOfWord]

/-- Settles O22: match and mask select the row of SW, whose EXECUTE writes one word in bounds and none out of bounds;
the end of the cycle leaves memory alone. -/
theorem swStoresWord : Obligations.SwStoresWord := by
  refine ⟨fun rt imm rs s hwf hin => ?inBounds, fun rt imm rs s hout => ?outOfBounds, fun s w hwf hf hw => ?cycle⟩
  case inBounds =>
    refine ⟨_, exec_sw_inBounds hin, ?_, fun _ => rfl, rfl, rfl, ⟨rfl, rfl, rfl⟩, rfl⟩
    rintro a rfl
    obtain ⟨h0, h1, h2, h3⟩ := Memory.read_writeWord_bytes hwf (s.effectiveAddress rs imm) (s.reg rt)
    exact ⟨h0, h1, h2, h3, fun b hb => Memory.read_writeWord_outside hwf _ hb⟩
  case outOfBounds =>
    exact ⟨_, exec_sw_outOfBounds hout, fun _ => rfl, fun _ => rfl, rfl, rfl, ⟨rfl, rfl, rfl⟩, rfl⟩
  case cycle =>
    have hdecode := decode_sw ((select_sw w).1 hw)
    have haddr := s.effectiveAddress_eq_ofInt (regField w 21) (w.extractLsb' 0 16)
    by_cases hin : s.effectiveAddress (regField w 21) (w.extractLsb' 0 16) + 3 < s.params.memSize
    · have hu := hdecode ▸ exec_sw_inBounds (s := s.advancePc) (rt := regField w 16) hin
      obtain ⟨h, hcompletes, hregs⟩ := step_of_exec_sameRegs hf hu fun _ => rfl
      refine ⟨_, _, _, h, hcompletes, hregs, rfl, hf.1, haddr, ?_⟩
      rw [if_pos hin]
      exact ⟨rfl, State.memRead_writeWord hwf hin _, fun b hb => Memory.read_writeWord_outside hwf _ hb⟩
    · have hu := hdecode ▸ exec_sw_outOfBounds (s := s.advancePc) (rt := regField w 16) (Nat.le_of_not_lt hin)
      obtain ⟨h, hcompletes, hregs⟩ := step_of_exec_sameRegs hf hu fun _ => rfl
      refine ⟨_, _, _, h, hcompletes, hregs, rfl, hf.1, haddr, ?_⟩
      rw [if_neg hin]
      exact ⟨rfl, fun _ => rfl⟩

/-! ### LW (R162) -/

section
variable {s : State} {rt rs : RegIdx} {imm : Imm}

/-- An LW in bounds writes the word that MemRead gives, as an arithmetic instruction writes its result. -/
theorem exec_lw_of_memRead {v : Word} (hread : s.memRead (s.effectiveAddress rs imm) = some v) :
    exec (.lw rt imm rs) s = .next (s.writesResult rt v) := by
  obtain ⟨hin, rfl⟩ := State.memRead_eq_some.1 hread
  rw [exec_lw, if_pos hin]

theorem exec_lw_outOfBounds (hout : s.params.memSize ≤ s.effectiveAddress rs imm + 3) :
    exec (.lw rt imm rs) s = .next (s.reports .loadOutOfBounds) := by
  rw [exec_lw, if_neg (by omega)]

end

/-- Settles O23: match and mask select the row of LW, whose EXECUTE writes the word of four bytes in bounds and nothing
out of bounds. -/
theorem lwLoadsWord : Obligations.LwLoadsWord := by
  refine ⟨fun rt imm rs s hin => ?inBounds, fun rt imm rs s hout => ?outOfBounds, fun s w hf hw => ?cycle⟩
  case inBounds =>
    obtain ⟨t, h, hrt, hframe⟩ := exec_writesResult (exec_lw_of_memRead (State.memRead_eq_some.2 ⟨hin, rfl⟩))
    refine ⟨t, h, ?_, hframe⟩
    rintro a rfl
    exact hrt
  case outOfBounds =>
    exact ⟨_, exec_lw_outOfBounds hout, fun _ => rfl, fun _ => rfl, rfl, rfl, ⟨rfl, rfl, rfl⟩, rfl⟩
  case cycle =>
    have hdecode := decode_lw ((select_lw w).1 hw)
    have haddr := s.effectiveAddress_eq_ofInt (regField w 21) (w.extractLsb' 0 16)
    cases hread : s.memRead (s.effectiveAddress (regField w 21) (w.extractLsb' 0 16)) with
    | some v =>
      have hu := hdecode ▸ exec_lw_of_memRead (s := s.advancePc) (rt := regField w 16) hread
      obtain ⟨t, h, hcompletes, hmem, hpc, hrunning, hregs⟩ := step_writesResult hf hu
      refine ⟨t, _, _, h, hcompletes, hmem, hpc, hrunning, haddr,
        fun q hq hne => (hregs q hq).trans (if_neg hne), ?_⟩
      rw [if_pos (State.memRead_eq_some.1 hread).1]
      exact ⟨rfl, fun hrt => hread.trans (congrArg some ((hregs _ hrt).trans (if_pos rfl)).symm)⟩
    | none =>
      have hout := State.memRead_eq_none.1 hread
      have hu := hdecode ▸ exec_lw_outOfBounds (s := s.advancePc) (rt := regField w 16) hout
      obtain ⟨h, hcompletes, hregs⟩ := step_of_exec_sameRegs hf hu fun _ => rfl
      refine ⟨_, _, _, h, hcompletes, fun _ => rfl, rfl, hf.1, haddr, fun q hq _ => hregs q hq, ?_⟩
      rw [if_neg (Nat.not_lt.2 hout)]
      exact ⟨rfl, hregs _⟩

/-! ### SW then LW (95_test_vectors.md V5) -/

/-- Settles O24: the SW changes neither the base register nor the memory size, so the LW reads the word written. -/
theorem loadAfterStoreYieldsStoredWord : Obligations.LoadAfterStoreYieldsStoredWord := by
  intro r q rs imm s hwf hin
  have hread : (s.stored (s.effectiveAddress rs imm) (s.reg r)).memRead (s.effectiveAddress rs imm) =
      some (s.reg r) := State.memRead_writeWord hwf hin (s.reg r)
  exact ⟨_, _, exec_sw_inBounds hin, exec_lw_of_memRead hread, State.reg_setReg_self _ q (s.reg r)⟩

end Sys2Proof.Machine

/-! Unrecognised words (44_unrecognized.md): both classes report their condition and touch neither registers nor memory;
an unrecognised opcode also stops the machine, at the advanced pc. -/

namespace Sys2Proof.Machine

/-! ### Unrecognised funct (R170) -/

/-- Settles O29: without a register written, the cycle is the advance of pc and the report. -/
theorem unrecognizedFunctChangesNothing : Obligations.UnrecognizedFunctChangesNothing := by
  refine ⟨fun rs rt rd shamt funct s => ?execute, fun s w hf hop hadd hsub => ?cycle⟩
  case execute =>
    exact ⟨_, exec_unrecognizedFunct s .., fun _ => rfl, fun _ => rfl, rfl, rfl, ⟨rfl, rfl, rfl⟩, rfl⟩
  case cycle =>
    have hu := decode_unrecognizedFunct hop hadd hsub ▸ exec_unrecognizedFunct s.advancePc ..
    obtain ⟨h, hcompletes, hregs⟩ := step_of_exec_sameRegs hf hu fun _ => rfl
    exact ⟨_, h, hcompletes, fun _ => rfl, rfl, hf.1, hregs⟩

/-! ### Unrecognised opcode (R171) -/

/-- Settles O30: without a register written, the cycle is the advance of pc, the report and the cleared running flag. -/
theorem unrecognizedOpcodeHalts : Obligations.UnrecognizedOpcodeHalts := by
  refine ⟨fun opcode rs rt rd shamt funct s => ?execute, fun s w hf hop => ?cycle⟩
  case execute =>
    exact ⟨_, exec_unrecognizedOpcode s .., rfl, fun _ => rfl, fun _ => rfl, rfl, ⟨rfl, rfl, rfl⟩, rfl⟩
  case cycle =>
    have hu := decode_unrecognizedOpcode hop ▸ exec_unrecognizedOpcode s.advancePc ..
    obtain ⟨h, hcompletes, hregs⟩ := step_of_exec_sameRegs hf hu fun _ => rfl
    exact ⟨_, h, hcompletes, fun _ => rfl, rfl, rfl, hregs⟩

end Sys2Proof.Machine

/-! Exceptional conditions (60_exceptions.md): the condition that each instruction meets, and the record that tells it. -/

namespace Sys2Proof.Machine

/-! ### The causes of R181 -/

/-- The condition of R181 that the instruction meets in `s`, read off its row and, for LW and SW, the bounds of R55. -/
def State.condition (s : State) : Instr → Event
  | .unrecognizedFunct _ _ _ _ _ => .unrecognizedFunct
  | .unrecognizedOpcode _ _ _ _ _ _ => .unrecognizedOpcode
  | .lw _ imm rs => if s.params.memSize ≤ s.effectiveAddress rs imm + 3 then .loadOutOfBounds else .none
  | .sw _ imm rs => if s.params.memSize ≤ s.effectiveAddress rs imm + 3 then .storeOutOfBounds else .none
  | .add _ _ _ _ | .sub _ _ _ _ | .addi _ _ _ | .beq _ _ _ => .none

/-- EXECUTE returns the tag of the condition met in the state it starts from (40_cycle.md R116). -/
theorem exec_event {i : Instr} {s t : State} (h : exec i s = .next t) : t.event = s.condition i := by
  cases i with
  | add rd rs rt sh => cases h; rfl
  | sub rd rs rt sh => cases h; rfl
  | addi rt rs imm => cases h; rfl
  | beq rs rt imm => rw [exec_beq] at h; cases h; rfl
  | sw rt imm rs =>
    rw [exec_sw] at h
    split at h <;> rename_i hb <;> cases h
    · exact (if_neg (Nat.not_le.2 hb)).symm
    · exact (if_pos (Nat.le_of_not_lt hb)).symm
  | lw rt imm rs =>
    rw [exec_lw] at h
    split at h <;> rename_i hb <;> cases h
    · exact (if_neg (Nat.not_le.2 hb)).symm
    · exact (if_pos (Nat.le_of_not_lt hb)).symm
  | unrecognizedFunct rs rt rd sh fn => cases h; rfl
  | unrecognizedOpcode op rs rt rd sh fn => cases h; rfl

/-- The advance of pc changes no condition: none of them reads pc. -/
theorem condition_advancePc (s : State) (i : Instr) : s.advancePc.condition i = s.condition i := by
  cases i <;> rfl

/-- Settles O13: the record takes the tag of EXECUTE, and that tag is the condition met at the start of the cycle. -/
theorem recordedEventTellsItsCause : Obligations.RecordedEventTellsItsCause := by
  intro s w hf
  obtain ⟨u, hu, hstep⟩ := exec_of_fetches hf
  obtain ⟨-, htrace, -⟩ := exec_keeps hu
  have hevent : u.event = s.condition (decode w) := (exec_event hu).trans (condition_advancePc s _)
  refine ⟨_, _, hstep, congrArg _ htrace, hevent.trans ?_⟩
  cases decode w <;> rfl

end Sys2Proof.Machine

/-! Reset, start-up and the loader (70_reset_and_hazards.md): what the loader stores and leaves, and the clock edges
under rst and after it. -/

namespace Sys2Proof.Machine

/-! ### The loader (R214) -/

section
variable {s : State} {a : Nat}

/-- A word that fits is stored, and the loader goes on at the next word address. -/
theorem State.loadFrom_cons_fits (hfits : a + 3 < s.params.memSize) (w : Word) (ws : List Word) :
    s.loadFrom a (w :: ws) = State.loadFrom { s with mem := s.mem.writeWord a w } (a + 4) ws := by
  rw [State.loadFrom, State.memWrite_eq_some.2 ⟨hfits, rfl⟩]

/-- At the first word that does not fit the loader stops. -/
theorem State.loadFrom_cons_outside (hout : s.params.memSize ≤ a + 3) (w : Word) (ws : List Word) :
    s.loadFrom a (w :: ws) = s := by
  rw [State.loadFrom, State.memWrite_eq, if_neg (Nat.not_lt.2 hout)]

@[simp] theorem State.loadFrom_params (s : State) (a : Nat) (ws : List Word) :
    (s.loadFrom a ws).params = s.params := by
  rw [s.loadFrom_eq a ws]

/-- A byte outside every word that fits keeps its value. -/
theorem State.loadFrom_read_outside (hwf : s.mem.wf) {ws : List Word} {b : Nat}
    (hb : ∀ i, i < ws.length → a + 4 * i + 3 < s.params.memSize → b < a + 4 * i ∨ a + 4 * i + 4 ≤ b) :
    (s.loadFrom a ws).mem.read b = s.mem.read b := by
  induction ws generalizing s a with
  | nil => rfl
  | cons w ws ih =>
    by_cases hfits : a + 3 < s.params.memSize
    · rw [State.loadFrom_cons_fits hfits, ih (Memory.wf_writeWord hwf a w) fun i hi hin => ?rest]
      · exact Memory.read_writeWord_outside hwf w (hb 0 (Nat.succ_pos _) hfits)
      case rest =>
        have hrest := hb (i + 1) (Nat.succ_lt_succ hi)
        dsimp only at hin
        omega
    · rw [State.loadFrom_cons_outside (Nat.le_of_not_lt hfits)]

/-- The loader keeps every word that lies below its start address. -/
theorem State.loadFrom_memRead_below (hwf : s.mem.wf) {c : Nat} (hc : c + 4 ≤ a) (ws : List Word) :
    (s.loadFrom a ws).memRead c = s.memRead c := by
  have hread (j : Nat) (hj : j < 4) : (s.loadFrom a ws).mem.read (c + j) = s.mem.read (c + j) :=
    State.loadFrom_read_outside hwf fun i _ _ => .inl (by omega)
  rw [State.memRead_eq, State.memRead_eq, State.loadFrom_params, hread 1 (by decide), hread 2 (by decide),
    hread 3 (by decide), show (s.loadFrom a ws).mem.read c = s.mem.read c from hread 0 (by decide)]

/-- Word `i` of the image, if it fits, stands `i` words after the start address. -/
theorem State.loadFrom_memRead (hwf : s.mem.wf) {ws : List Word} {i : Nat} {w : Word} (hw : ws[i]? = some w)
    (hin : a + 4 * i + 3 < s.params.memSize) : (s.loadFrom a ws).memRead (a + 4 * i) = some w := by
  induction ws generalizing s a i with
  | nil => simp at hw
  | cons v ws ih =>
    have hfits : a + 3 < s.params.memSize := by omega
    have hwf' := Memory.wf_writeWord hwf a v
    rw [State.loadFrom_cons_fits hfits]
    cases i with
    | zero =>
      have hkept := State.loadFrom_memRead_below (s := { s with mem := s.mem.writeWord a v }) hwf' (le_refl (a + 4)) ws
      exact (hkept.trans (State.memRead_writeWord hwf hfits v)).trans hw
    | succ i =>
      rw [show a + 4 * (i + 1) = a + 4 + 4 * i by omega] at hin ⊢
      exact ih hwf' hw hin

end

/-- The program-load phase keeps the invariant, which asks of memory only its form and its size. -/
theorem State.Inv.loadImage {s : State} (hs : s.Inv) (image : List Word) : (s.loadImage image).Inv := by
  obtain ⟨hwf, hwithin⟩ := State.loadFrom_wf hs.mem_wf hs.mem_within 0 image
  rw [State.loadImage, s.loadFrom_eq 0 image]
  exact { hs with mem_wf := hwf, mem_within := hwithin }

/-- Settles O39: the loader from address 0 over the empty memory of reset. -/
theorem loaderPlacesImage : Obligations.LoaderPlacesImage := by
  intro p image hp
  refine ⟨fun i w hw hin => ?_, fun a ha => ?_, State.loadFrom_eq _ 0 image,
    (State.Inv.resetWith hp).loadImage image⟩
  · have hread := State.loadFrom_memRead (s := State.resetWith p) (a := 0) Memory.wf_nil hw
    rw [Nat.zero_add] at hread
    exact hread hin
  · exact State.loadFrom_read_outside (s := State.resetWith p) (a := 0) Memory.wf_nil fun i hi hin => by
      rw [Nat.zero_add] at hin ⊢
      exact ha i hi hin

/-! ### Clock edges (R211, R212) -/

/-- Every edge without rst is a step from the state its cycle starts from. -/
theorem clockEdge_steps (image : List Word) (b : Block) : ∃ t, step (b.cycleStart image) = .next t ∧
    clockEdge image false b = .next { core := t, loadPending := false } := by
  obtain ⟨t, ht⟩ := step_total (b.cycleStart image)
  exact ⟨t, ht, clockEdge_cycle ht⟩

/-- Settles O40: an edge with rst is `resetWith`, one without it a step, and the first after a reset starts from the launch
state. -/
theorem resetEdgeDiscardsEverything : Obligations.ResetEdgeDiscardsEverything := by
  intro b image
  refine ⟨⟨_, clockEdge_reset image b, Memory.read_nil, reg_resetWith _, rfl, rfl, rfl, rfl, rfl,
    clockEdge_reset image _, clockEdge_steps image { core := State.resetWith b.core.params, loadPending := true }⟩,
    fun hloaded => ?_⟩
  have hstep := clockEdge_steps image b
  rwa [Block.cycleStart, hloaded] at hstep

/-- However long rst is held, what follows starts from the reset values with the load pending. -/
theorem clockEdges_held (image : List Word) (n : Nat) (rsts : List Bool) (b : Block) :
    clockEdges image (List.replicate (n + 1) true ++ rsts) b =
      clockEdges image rsts { core := State.resetWith b.core.params, loadPending := true } := by
  induction n generalizing b with
  | zero => exact clockEdges_cons (clockEdge_reset image b) rsts
  | succ n ih => exact (clockEdges_cons (clockEdge_reset image b) _).trans (ih _)

/-- Edges without rst are the run from the state the first of their cycles starts from. -/
theorem clockEdges_run (image : List Word) (k : Nat) (b : Block) : ∃ t,
    Sys2Proof.core.run (k + 1) (b.cycleStart image) = .next t ∧
    clockEdges image (List.replicate (k + 1) false) b = .next { core := t, loadPending := false } := by
  induction k generalizing b with
  | zero =>
    obtain ⟨t, ht, hedge⟩ := clockEdge_steps image b
    exact ⟨t, core_run_next ht 0, clockEdges_cons hedge []⟩
  | succ k ih =>
    obtain ⟨u, hu, hedge⟩ := clockEdge_steps image b
    obtain ⟨t, hrun, hedges⟩ := ih { core := u, loadPending := false }
    exact ⟨t, (core_run_next hu (k + 1)).trans hrun, (clockEdges_cons hedge _).trans hedges⟩

/-- Settles O44: the held reset leaves a pending load, which the first cycle after it takes up and no later one. -/
theorem runAfterResetIsRunOfLaunch : Obligations.RunAfterResetIsRunOfLaunch := by
  intro b image n k
  rw [clockEdges_held]
  exact clockEdges_run image k { core := State.resetWith b.core.params, loadPending := true }

end Sys2Proof.Machine
